-- ==== Sys2Proof/Word.lean ====
section
/-! DEFINITION. The widths of the psMCU (R5 of 00_scope.md) as types: every value is an unsigned bit vector whose
bit 0 is the least significant one (R8). -/

namespace Sys2Proof

/-- A register, a literal or a data location: 8 bits (R5, R20, R33). -/
abbrev Byte := BitVec 8

/-- An instruction address as an operand: 14 bits (R5, R87). -/
abbrev ProgAddr := BitVec 14

/-- A data address: 9 bits (R5, R33, R87). -/
abbrev DataAddr := BitVec 9

/-- A bit index, 0 the least significant bit: 3 bits (R5, R87). -/
abbrev BitIndex := BitVec 3

/-- A word of the spec's own reference encoding SRE-20: 20 bits, a number and never a byte string (R89). -/
abbrev SreWord := BitVec 20

end Sys2Proof
end

