-- ==== Sys2Proof/Syntax.lean ====
section
/-! DEFINITION. The instruction terms of psASM (R80, R82 of 30_encoding.md): one constructor per mnemonic, its operands
in the widths of its form (R83). The operands the source calls L, A, B, O and S are written lit, addr, bit and raw (R9, D28):
A and B name the registers only. -/

namespace Sys2Proof

/-- An instruction term: a mnemonic of R82 with its operand values. A `raw` operand has no table in the source and is an
uninterpreted natural number (R88); the other operands carry their width in their type (R85, R87). -/
inductive Instr where
  -- Basic Instructions (40_basic.md)
  | nop
  | halt
  | lita (lit : Byte)
  | litb (lit : Byte)
  | cpy
  | swp
  | jmp (addr : ProgAddr)
  | ifra (bit : BitIndex)
  | ifsa (bit : BitIndex)
  | ifrm (addr : DataAddr) (bit : BitIndex)
  | ifsm (addr : DataAddr) (bit : BitIndex)
  -- Data Manipulation Instructions (41_data_manipulation.md)
  | add
  | addc
  | addla (lit : Byte)
  | addlac (lit : Byte)
  | addlb (lit : Byte)
  | addlbc (lit : Byte)
  | sub
  | subc
  | subl (lit : Byte)
  | sublc (lit : Byte)
  | compb
  | compbc
  | nota
  | and
  | andl (lit : Byte)
  | or
  | orl (lit : Byte)
  | xor
  | xorl (lit : Byte)
  | shftr
  | shftrl (lit : Byte)
  | shftl
  | shftll (lit : Byte)
  -- Heap RAM & Peripheral Access Instructions (42_heap_peripheral.md)
  | sva (raw : Nat)
  | svb (raw : Nat)
  | lda (raw : Nat)
  | ldb (raw : Nat)
  | svdp
  | svdr
  | lddr
  -- Stack RAM Instructions (43_stack.md)
  | call (raw : Nat)
  | rtrn
  | rtrni
  | popa
  | popb
  | popm (raw : Nat)
  | pusha
  | pushb
  | pushm (raw : Nat)
  | stla (raw : Nat)
  | stlb (raw : Nat)
  | stsa (raw : Nat)
  | stsb (raw : Nat)
  | grow (raw : Nat)
  | shrink (raw : Nat)
deriving DecidableEq, Repr

end Sys2Proof
end

