-- ==== Sys2Proof/WellFormed.lean ====
section
/-! DEFINITION. Operand forms (R83) and the well-formedness of a term (R96 of 30_encoding.md). -/

namespace Sys2Proof

/-- The operand forms of R83. -/
inductive Form where
  | f0 | fl | fa14 | fb | fab | fxa | fxo | fxs
deriving DecidableEq, Repr

/-- The operands of a term, by form (R83). -/
inductive Operand where
  | none
  | lit (v : Byte)
  | target (addr : ProgAddr)
  | bit (bit : BitIndex)
  | memBit (addr : DataAddr) (bit : BitIndex)
  | rawA (n : Nat)
  | rawO (n : Nat)
  | rawS (n : Nat)
deriving DecidableEq, Repr

/-- The form an operand belongs to (R83). -/
def Operand.form : Operand → Form
  | .none => .f0
  | .lit _ => .fl
  | .target _ => .fa14
  | .bit _ => .fb
  | .memBit _ _ => .fab
  | .rawA _ => .fxa
  | .rawO _ => .fxo
  | .rawS _ => .fxs

/-- The operands of each term: the column `form` of the table of R82. -/
def Instr.operand : Instr → Operand
  | .nop => .none
  | .halt => .none
  | .lita lit => .lit lit
  | .litb lit => .lit lit
  | .cpy => .none
  | .swp => .none
  | .jmp addr => .target addr
  | .ifra bit => .bit bit
  | .ifsa bit => .bit bit
  | .ifrm addr bit => .memBit addr bit
  | .ifsm addr bit => .memBit addr bit
  | .add => .none
  | .addc => .none
  | .addla lit => .lit lit
  | .addlac lit => .lit lit
  | .addlb lit => .lit lit
  | .addlbc lit => .lit lit
  | .sub => .none
  | .subc => .none
  | .subl lit => .lit lit
  | .sublc lit => .lit lit
  | .compb => .none
  | .compbc => .none
  | .nota => .none
  | .and => .none
  | .andl lit => .lit lit
  | .or => .none
  | .orl lit => .lit lit
  | .xor => .none
  | .xorl lit => .lit lit
  | .shftr => .none
  | .shftrl lit => .lit lit
  | .shftl => .none
  | .shftll lit => .lit lit
  | .sva raw => .rawA raw
  | .svb raw => .rawA raw
  | .lda raw => .rawA raw
  | .ldb raw => .rawA raw
  | .svdp => .none
  | .svdr => .none
  | .lddr => .none
  | .call raw => .rawA raw
  | .rtrn => .none
  | .rtrni => .none
  | .popa => .none
  | .popb => .none
  | .popm raw => .rawA raw
  | .pusha => .none
  | .pushb => .none
  | .pushm raw => .rawA raw
  | .stla raw => .rawO raw
  | .stlb raw => .rawO raw
  | .stsa raw => .rawO raw
  | .stsb raw => .rawO raw
  | .grow raw => .rawS raw
  | .shrink raw => .rawS raw

/-- The operand form of a term (R82, R83). -/
def Instr.form (i : Instr) : Form := i.operand.form

/-- R96's bound on a `raw` operand: the width of SRE-20's operand field, the spec's own bound. -/
def rawLimit : Nat := 16383

/-- The operand condition of R96. The bounds of lit, addr and bit hold by their types. -/
def Operand.wellFormed : Operand → Bool
  | .none | .lit _ | .target _ | .bit _ | .memBit _ _ => true
  | .rawA n | .rawO n | .rawS n => n ≤ rawLimit

/-- A term is well-formed when its operands meet its form (R96). -/
def Instr.wellFormed (i : Instr) : Bool := i.operand.wellFormed

/-- The assembler-level check of a written literal L: the valid range [-128, 255] (R84, R85, D24). -/
def validLiteral (l : Int) : Bool := -128 ≤ l && l ≤ 255

/-- The assembler-level check of a written JMP address: [0, 16383] (R84, R87, D25). -/
def validTarget (n : Int) : Bool := 0 ≤ n && n ≤ 16383

/-- The assembler-level check of a written data address: [0, 511] (R84, R87, D25). -/
def validDataAddr (n : Int) : Bool := 0 ≤ n && n ≤ 511

/-- The assembler-level check of a written bit index: [0, 7] (R84, R87, D25). -/
def validBit (n : Int) : Bool := 0 ≤ n && n ≤ 7

/-- The check of a written operand that has no table: R96's bound, the spec's own. -/
def validRaw (n : Int) : Bool := 0 ≤ n && n ≤ 16383

end Sys2Proof
end

