-- ==== Sys2Proof/Decode.lean ====
section
/-! DEFINITION. The reference encoding SRE-20 (R89 to R91 of 30_encoding.md): decoder, encoder and the rows of
spec/opcode_table.json. SRE-20 is the spec's own and NOT the chip's encoding (D3); that a program slot
holds such a word is a DESIGN CHOICE, safe: log entry 1. -/

namespace Sys2Proof

/-- Why a word is `invalid` (R91). -/
inductive DecodeRefusal where
  /-- `w[19:14] > 55`: no mnemonic has this ordinal. -/
  | opnumOutOfRange (opnum : Nat)
  /-- A bit that the form requires to be zero is one. -/
  | nonZeroBit (opnum : Nat)
deriving DecidableEq, Repr

/-- The field `opnum`, bits 19:14 of a word (R89). -/
def SreWord.opnum (w : SreWord) : BitVec 6 := w.extractLsb' 14 6

/-- The field `opd`, bits 13:0 of a word (R89). -/
def SreWord.opd (w : SreWord) : BitVec 14 := w.extractLsb' 0 14

/-- A word from its two fields (R89). -/
def SreWord.pack (opnum : BitVec 6) (opd : BitVec 14) : SreWord := opnum ++ opd

/-- Form F0: the operand field is all zero (R90). -/
def decodeNone (n : Nat) (i : Instr) (opd : BitVec 14) : Except DecodeRefusal Instr :=
  if opd = 0 then .ok i else .error (.nonZeroBit n)

/-- Form FL: `opd[7:0] = lit`, the rest zero (R90). -/
def decodeLit (n : Nat) (f : Byte → Instr) (opd : BitVec 14) : Except DecodeRefusal Instr :=
  if opd.extractLsb' 8 6 = 0 then .ok (f (opd.extractLsb' 0 8)) else .error (.nonZeroBit n)

/-- Form FA14: `opd[13:0] = addr` (R90). -/
def decodeTarget (f : ProgAddr → Instr) (opd : BitVec 14) : Except DecodeRefusal Instr :=
  .ok (f opd)

/-- Form FB: `opd[2:0] = bit`, the rest zero (R90). -/
def decodeBit (n : Nat) (f : BitIndex → Instr) (opd : BitVec 14) : Except DecodeRefusal Instr :=
  if opd.extractLsb' 3 11 = 0 then .ok (f (opd.extractLsb' 0 3)) else .error (.nonZeroBit n)

/-- Form FAB: `opd[8:0] = addr`, `opd[11:9] = bit`, the rest zero (R90). -/
def decodeMemBit (n : Nat) (f : DataAddr → BitIndex → Instr) (opd : BitVec 14) : Except DecodeRefusal Instr :=
  if opd.extractLsb' 12 2 = 0 then .ok (f (opd.extractLsb' 0 9) (opd.extractLsb' 9 3)) else .error (.nonZeroBit n)

/-- Forms FXA, FXO, FXS: `opd[13:0] = raw` (R90). -/
def decodeRaw (f : Nat → Instr) (opd : BitVec 14) : Except DecodeRefusal Instr :=
  .ok (f opd.toNat)

/-- The term an ordinal of R82 and an operand field stand for. -/
def decodeFields (opnum : Nat) (opd : BitVec 14) : Except DecodeRefusal Instr :=
  match opnum with
  | 0 => decodeNone 0 .nop opd
  | 1 => decodeNone 1 .halt opd
  | 2 => decodeLit 2 .lita opd
  | 3 => decodeLit 3 .litb opd
  | 4 => decodeNone 4 .cpy opd
  | 5 => decodeNone 5 .swp opd
  | 6 => decodeTarget .jmp opd
  | 7 => decodeBit 7 .ifra opd
  | 8 => decodeBit 8 .ifsa opd
  | 9 => decodeMemBit 9 .ifrm opd
  | 10 => decodeMemBit 10 .ifsm opd
  | 11 => decodeNone 11 .add opd
  | 12 => decodeNone 12 .addc opd
  | 13 => decodeLit 13 .addla opd
  | 14 => decodeLit 14 .addlac opd
  | 15 => decodeLit 15 .addlb opd
  | 16 => decodeLit 16 .addlbc opd
  | 17 => decodeNone 17 .sub opd
  | 18 => decodeNone 18 .subc opd
  | 19 => decodeLit 19 .subl opd
  | 20 => decodeLit 20 .sublc opd
  | 21 => decodeNone 21 .compb opd
  | 22 => decodeNone 22 .compbc opd
  | 23 => decodeNone 23 .nota opd
  | 24 => decodeNone 24 .and opd
  | 25 => decodeLit 25 .andl opd
  | 26 => decodeNone 26 .or opd
  | 27 => decodeLit 27 .orl opd
  | 28 => decodeNone 28 .xor opd
  | 29 => decodeLit 29 .xorl opd
  | 30 => decodeNone 30 .shftr opd
  | 31 => decodeLit 31 .shftrl opd
  | 32 => decodeNone 32 .shftl opd
  | 33 => decodeLit 33 .shftll opd
  | 34 => decodeRaw .sva opd
  | 35 => decodeRaw .svb opd
  | 36 => decodeRaw .lda opd
  | 37 => decodeRaw .ldb opd
  | 38 => decodeNone 38 .svdp opd
  | 39 => decodeNone 39 .svdr opd
  | 40 => decodeNone 40 .lddr opd
  | 41 => decodeRaw .call opd
  | 42 => decodeNone 42 .rtrn opd
  | 43 => decodeNone 43 .rtrni opd
  | 44 => decodeNone 44 .popa opd
  | 45 => decodeNone 45 .popb opd
  | 46 => decodeRaw .popm opd
  | 47 => decodeNone 47 .pusha opd
  | 48 => decodeNone 48 .pushb opd
  | 49 => decodeRaw .pushm opd
  | 50 => decodeRaw .stla opd
  | 51 => decodeRaw .stlb opd
  | 52 => decodeRaw .stsa opd
  | 53 => decodeRaw .stsb opd
  | 54 => decodeRaw .grow opd
  | 55 => decodeRaw .shrink opd
  | n => .error (.opnumOutOfRange n)

/-- SRE-20 decoding, total on 20-bit words: the unique term, or the verdict `invalid` by name (R91). -/
def decode (w : SreWord) : Except DecodeRefusal Instr := decodeFields w.opnum.toNat w.opd

/-- What the decoder reads from the number `w` of an instruction of `nbits` bits: a SRE-20 word is a number (R89), so a
number of 20 bits is the word itself and a larger one is no word. -/
def sreWordOf (nbits w : Nat) : Option SreWord :=
  let v := w % 2 ^ nbits
  if v < 2 ^ 20 then some (BitVec.ofNat 20 v) else none

/-- The host's view of `decode`: the term of a numbered table word, none where the decoder refuses it. -/
def decodeTableWord (nbits w : Nat) : Option Instr :=
  match sreWordOf nbits w with
  | none => none
  | some v =>
    match decode v with
    | .ok i => some i
    | .error _ => none

/-- The ordinal `#` of each mnemonic: its position in the source, from 0 (R82). -/
def Instr.ordinal : Instr → BitVec 6
  | .nop => 0
  | .halt => 1
  | .lita _ => 2
  | .litb _ => 3
  | .cpy => 4
  | .swp => 5
  | .jmp _ => 6
  | .ifra _ => 7
  | .ifsa _ => 8
  | .ifrm _ _ => 9
  | .ifsm _ _ => 10
  | .add => 11
  | .addc => 12
  | .addla _ => 13
  | .addlac _ => 14
  | .addlb _ => 15
  | .addlbc _ => 16
  | .sub => 17
  | .subc => 18
  | .subl _ => 19
  | .sublc _ => 20
  | .compb => 21
  | .compbc => 22
  | .nota => 23
  | .and => 24
  | .andl _ => 25
  | .or => 26
  | .orl _ => 27
  | .xor => 28
  | .xorl _ => 29
  | .shftr => 30
  | .shftrl _ => 31
  | .shftl => 32
  | .shftll _ => 33
  | .sva _ => 34
  | .svb _ => 35
  | .lda _ => 36
  | .ldb _ => 37
  | .svdp => 38
  | .svdr => 39
  | .lddr => 40
  | .call _ => 41
  | .rtrn => 42
  | .rtrni => 43
  | .popa => 44
  | .popb => 45
  | .popm _ => 46
  | .pusha => 47
  | .pushb => 48
  | .pushm _ => 49
  | .stla _ => 50
  | .stlb _ => 51
  | .stsa _ => 52
  | .stsb _ => 53
  | .grow _ => 54
  | .shrink _ => 55

/-- The operand field of SRE-20 per form; bits not listed are zero (R90). -/
def Operand.field : Operand → BitVec 14
  | .none => 0
  | .lit v => v.setWidth 14
  | .target addr => addr
  | .bit b => b.setWidth 14
  | .memBit addr b => (0#2 ++ b) ++ addr
  | .rawA n | .rawO n | .rawS n => BitVec.ofNat 14 n

/-- SRE-20 encoding of a term: `#` in bits 19:14, the operand field in bits 13:0 (R89, R90). -/
def encode (i : Instr) : SreWord := SreWord.pack i.ordinal i.operand.field

/-- The mnemonic of a term, as R82 spells it. -/
def Instr.mnemonic : Instr → String
  | .nop => "NOP"
  | .halt => "HALT"
  | .lita _ => "LITA"
  | .litb _ => "LITB"
  | .cpy => "CPY"
  | .swp => "SWP"
  | .jmp _ => "JMP"
  | .ifra _ => "IFRA"
  | .ifsa _ => "IFSA"
  | .ifrm _ _ => "IFRM"
  | .ifsm _ _ => "IFSM"
  | .add => "ADD"
  | .addc => "ADDC"
  | .addla _ => "ADDLA"
  | .addlac _ => "ADDLAC"
  | .addlb _ => "ADDLB"
  | .addlbc _ => "ADDLBC"
  | .sub => "SUB"
  | .subc => "SUBC"
  | .subl _ => "SUBL"
  | .sublc _ => "SUBLC"
  | .compb => "COMPB"
  | .compbc => "COMPBC"
  | .nota => "NOTA"
  | .and => "AND"
  | .andl _ => "ANDL"
  | .or => "OR"
  | .orl _ => "ORL"
  | .xor => "XOR"
  | .xorl _ => "XORL"
  | .shftr => "SHFTR"
  | .shftrl _ => "SHFTRL"
  | .shftl => "SHFTL"
  | .shftll _ => "SHFTLL"
  | .sva _ => "SVA"
  | .svb _ => "SVB"
  | .lda _ => "LDA"
  | .ldb _ => "LDB"
  | .svdp => "SVDP"
  | .svdr => "SVDR"
  | .lddr => "LDDR"
  | .call _ => "CALL"
  | .rtrn => "RTRN"
  | .rtrni => "RTRNI"
  | .popa => "POPA"
  | .popb => "POPB"
  | .popm _ => "POPM"
  | .pusha => "PUSHA"
  | .pushb => "PUSHB"
  | .pushm _ => "PUSHM"
  | .stla _ => "STLA"
  | .stlb _ => "STLB"
  | .stsa _ => "STSA"
  | .stsb _ => "STSB"
  | .grow _ => "GROW"
  | .shrink _ => "SHRINK"

/-- A row of spec/opcode_table.json: a word `w` selects the row when `w & mask = pattern` (R90). -/
structure SreRow where
  mnemonic : String
  form : Form
  pattern : SreWord
  mask : SreWord
deriving DecidableEq, Repr

/-- The rows of Basic Instructions: the columns match and mask of the opcode table. -/
def basicRows : List SreRow := [
  ⟨"NOP", .f0, 0x00000, 0xFFFFF⟩,
  ⟨"HALT", .f0, 0x04000, 0xFFFFF⟩,
  ⟨"LITA", .fl, 0x08000, 0xFFF00⟩,
  ⟨"LITB", .fl, 0x0C000, 0xFFF00⟩,
  ⟨"CPY", .f0, 0x10000, 0xFFFFF⟩,
  ⟨"SWP", .f0, 0x14000, 0xFFFFF⟩,
  ⟨"JMP", .fa14, 0x18000, 0xFC000⟩,
  ⟨"IFRA", .fb, 0x1C000, 0xFFFF8⟩,
  ⟨"IFSA", .fb, 0x20000, 0xFFFF8⟩,
  ⟨"IFRM", .fab, 0x24000, 0xFF000⟩,
  ⟨"IFSM", .fab, 0x28000, 0xFF000⟩]

/-- The rows of Data Manipulation Instructions: the columns match and mask of the opcode table. -/
def dataRows : List SreRow := [
  ⟨"ADD", .f0, 0x2C000, 0xFFFFF⟩,
  ⟨"ADDC", .f0, 0x30000, 0xFFFFF⟩,
  ⟨"ADDLA", .fl, 0x34000, 0xFFF00⟩,
  ⟨"ADDLAC", .fl, 0x38000, 0xFFF00⟩,
  ⟨"ADDLB", .fl, 0x3C000, 0xFFF00⟩,
  ⟨"ADDLBC", .fl, 0x40000, 0xFFF00⟩,
  ⟨"SUB", .f0, 0x44000, 0xFFFFF⟩,
  ⟨"SUBC", .f0, 0x48000, 0xFFFFF⟩,
  ⟨"SUBL", .fl, 0x4C000, 0xFFF00⟩,
  ⟨"SUBLC", .fl, 0x50000, 0xFFF00⟩,
  ⟨"COMPB", .f0, 0x54000, 0xFFFFF⟩,
  ⟨"COMPBC", .f0, 0x58000, 0xFFFFF⟩,
  ⟨"NOTA", .f0, 0x5C000, 0xFFFFF⟩,
  ⟨"AND", .f0, 0x60000, 0xFFFFF⟩,
  ⟨"ANDL", .fl, 0x64000, 0xFFF00⟩,
  ⟨"OR", .f0, 0x68000, 0xFFFFF⟩,
  ⟨"ORL", .fl, 0x6C000, 0xFFF00⟩,
  ⟨"XOR", .f0, 0x70000, 0xFFFFF⟩,
  ⟨"XORL", .fl, 0x74000, 0xFFF00⟩,
  ⟨"SHFTR", .f0, 0x78000, 0xFFFFF⟩,
  ⟨"SHFTRL", .fl, 0x7C000, 0xFFF00⟩,
  ⟨"SHFTL", .f0, 0x80000, 0xFFFFF⟩,
  ⟨"SHFTLL", .fl, 0x84000, 0xFFF00⟩]

/-- The rows of Heap RAM & Peripheral Access Instructions: the columns match and mask of the opcode table. -/
def heapRows : List SreRow := [
  ⟨"SVA", .fxa, 0x88000, 0xFC000⟩,
  ⟨"SVB", .fxa, 0x8C000, 0xFC000⟩,
  ⟨"LDA", .fxa, 0x90000, 0xFC000⟩,
  ⟨"LDB", .fxa, 0x94000, 0xFC000⟩,
  ⟨"SVDP", .f0, 0x98000, 0xFFFFF⟩,
  ⟨"SVDR", .f0, 0x9C000, 0xFFFFF⟩,
  ⟨"LDDR", .f0, 0xA0000, 0xFFFFF⟩]

/-- The rows of Stack RAM Instructions: the columns match and mask of the opcode table. -/
def stackRows : List SreRow := [
  ⟨"CALL", .fxa, 0xA4000, 0xFC000⟩,
  ⟨"RTRN", .f0, 0xA8000, 0xFFFFF⟩,
  ⟨"RTRNI", .f0, 0xAC000, 0xFFFFF⟩,
  ⟨"POPA", .f0, 0xB0000, 0xFFFFF⟩,
  ⟨"POPB", .f0, 0xB4000, 0xFFFFF⟩,
  ⟨"POPM", .fxa, 0xB8000, 0xFC000⟩,
  ⟨"PUSHA", .f0, 0xBC000, 0xFFFFF⟩,
  ⟨"PUSHB", .f0, 0xC0000, 0xFFFFF⟩,
  ⟨"PUSHM", .fxa, 0xC4000, 0xFC000⟩,
  ⟨"STLA", .fxo, 0xC8000, 0xFC000⟩,
  ⟨"STLB", .fxo, 0xCC000, 0xFC000⟩,
  ⟨"STSA", .fxo, 0xD0000, 0xFC000⟩,
  ⟨"STSB", .fxo, 0xD4000, 0xFC000⟩,
  ⟨"GROW", .fxs, 0xD8000, 0xFC000⟩,
  ⟨"SHRINK", .fxs, 0xDC000, 0xFC000⟩]

/-- The 56 rows of spec/opcode_table.json, in the order of R82. -/
def sreTable : List SreRow := basicRows ++ dataRows ++ heapRows ++ stackRows

/-- A word selects a row (R90). -/
def SreRow.selects (r : SreRow) (w : SreWord) : Bool := w &&& r.mask == r.pattern

end Sys2Proof
end

