-- ==== Sys2Proof/Config.lean ====
section
/-! DEFINITION. What is fixed for the machine: the parameters the source fixes (R5 of 00_scope.md), the value the model
names where the spec gives none, and the open parameters of R6 as constants WITHOUT a body, so that no proof can rest on
a value of them. -/

namespace Sys2Proof

/-- The four named bits of system register 1 (R26 to R29, R31). -/
inductive Flag where
  | c | hc | ovf | compC
deriving DecidableEq, Repr

/-- The largest instruction address, 16383 (R5, R23). -/
def Config.lastProgAddr : Nat := 16383

/-- The number of data locations, 512 (R5, R33). -/
def Config.dataSize : Nat := 512

/-- What a data location that no entry of DMem lists reads as. DESIGN CHOICE: the spec states no content (R230, N29).
Unsafe: log entry 5. -/
def Config.unlistedByte : Byte := 0x00

/-- `COMPBC_PLUS_ONE` of the machine (R6, R142): OPEN, no default, so no body. A FREE VALUE (DESIGN CHOICE,
safe: log entry 7). -/
opaque Config.compbcPlusOne : Bool

/-- `SR1_LAYOUT` (R6, R31, D9): OPEN. No rule reads a position; log entry 20. -/
opaque Config.sr1Layout : Flag → Nat

/-- `HW_ENCODING` (R6, R80, D3), the chip's own machine word for a term: OPEN. No rule depends on it; log entry 20. -/
opaque Config.hwEncoding : Instr → Nat

end Sys2Proof
end

