-- ==== Sys2Proof/Machine/State.lean ====
section
/-! DEFINITION. The state of the machine (R37 of 10_state.md) as plain data, the outcomes of a step (R13), the launch
arguments (R233 of 70_reset_and_hazards.md) and the state after reset. -/

namespace Sys2Proof.Machine

/-- The reasons of `ModelFault` (R13): the machine ran where the spec gives no meaning. They are the spec's own outcomes,
no events of the chip (R200). -/
inductive ModelFault where
  /-- R203. Raised by `fetch` when `pc > 16383`: the spec decides against a wrap to 0 (D11). Safe: the model stops. -/
  | pcOverflow
  /-- R204. Raised by `fetch` when the slot at `pc` holds no term. Safe: the model stops. -/
  | noInstruction
deriving DecidableEq, Repr

/-- Why a step stops with a fault. -/
inductive Fault where
  /-- Raised by `fetch`, and repeated by `step` once the mark records it (R207). Safe: the model stops. -/
  | modelFault (r : ModelFault)
  /-- Raised by `step` in a state with `halted` set: such a state has no step (R13, R218, U12). A stuck state, and with no
  mark set the successful end of a run. Safe: the model stops where the operator's button could go on (log entry 9). -/
  | halted
deriving DecidableEq, Repr

/-- Why the model declines an instruction or a location (R13). -/
inductive Refusal where
  /-- An instruction whose arm of `exec` has no meaning yet. Safe. No arm answers it. -/
  | notModelled (mnemonic : String)
  /-- R205, `Refused(NotInSource(m))`. Raised by the 35 instructions that the source names without semantics. Safe: the
  chip executes them, the model stops. -/
  | notInSource (mnemonic : String)
  /-- R206, `Refused(PeripheralRead(addr))`. Raised by `memRead`, so by IFRM and IFSM, outside `RAM_ADDRS`: the spec does
  not say what a peripheral register holds or does when read. Safe: the model stops. -/
  | peripheralRead (addr : DataAddr)
deriving DecidableEq, Repr

/-- The outcome mark a state can carry (R37, R207). -/
inductive Mark where
  | modelFault (r : ModelFault)
  | refused (r : Refusal)
deriving DecidableEq, Repr

/-- The names of the two general registers (R20, R21). -/
inductive Reg where
  | a | b
deriving DecidableEq, Repr

/-- System register 1, as far as the source names it: four 1-bit flags, not a word (R26 to R29, R31). -/
structure Sr1 where
  c : Bool
  hc : Bool
  ovf : Bool
  compC : Bool
deriving DecidableEq, Repr

/-- A run of data addresses, from `base` on. -/
structure Region where
  base : Nat
  size : Nat
deriving DecidableEq, Repr

/-- The open parameters of R6 that a run is given as arguments; the MODEL's own fields, written by no instruction. -/
structure Params where
  /-- `RAM_ADDRS`: the data addresses that are plain RAM (R52, R64). -/
  ramAddrs : List Region
  /-- `COMPBC_PLUS_ONE` (R142). -/
  compbcPlusOne : Bool
deriving DecidableEq, Repr

/-- Data memory (R33): (address, byte) pairs in the canonical form of `Memory.wf`. -/
abbrev Memory := List Host.Cell

/-- Program memory (R34): (address, SRE-20 word) pairs; a slot not listed is empty. The word stands for its term (R89,
log entry 1). -/
abbrev Slots := List (Nat × SreWord)

/-- The state tuple of R37. -/
structure State where
  /-- `x[A]` (R20). -/
  a : Byte
  /-- `x[B]` (R21). -/
  b : Byte
  /-- The instruction address, a natural number up to 16385, legal when at most 16383 (R23, R25). -/
  pc : Nat
  /-- C, HC, OVF and COMP_C (R26 to R29). -/
  sr1 : Sr1
  /-- The halted condition (R30). -/
  halted : Bool
  /-- `DMem` (R33). -/
  dmem : Memory
  /-- `PMem` (R34). -/
  pmem : Slots
  /-- The outcome mark (R37, R207). -/
  mark : Option Mark
  /-- The open parameters of this run (R6). -/
  params : Params
deriving DecidableEq, Repr

/-- What a meaning answers (R13). -/
abbrev Result := Host.Outcome State Fault Refusal

/-- The launch arguments of R233, with the open parameters of R6. -/
structure Launch where
  pmem : Slots
  dmem0 : Memory
  a0 : Byte
  b0 : Byte
  c0 : Bool
  hc0 : Bool
  ovf0 : Bool
  compC0 : Bool
  resetPc : ProgAddr
  params : Params
deriving DecidableEq, Repr

/-- The launch state of R233: the arguments, `halted = false`, no outcome mark. -/
def State.launch (l : Launch) : State :=
  { a := l.a0, b := l.b0, pc := l.resetPc.toNat, sr1 := ⟨l.c0, l.hc0, l.ovf0, l.compC0⟩, halted := false,
    dmem := l.dmem0, pmem := l.pmem, mark := none, params := l.params }

/-- Every data address is plain RAM: the launch value of `RAM_ADDRS` at reset. DESIGN CHOICE, unsafe:
log entry 6. -/
def Params.allRam : List Region := [⟨0, Config.dataSize⟩]

/-- The launch arguments of `State.reset`. The spec gives no reset value for any of them (R230, R231): registers, flags and
`pc` 0 are DESIGN CHOICE, unsafe (log entries 3 and 4), no program is loaded (log entry 2), no data byte is listed (log entry 5),
and `COMPBC_PLUS_ONE` is the free constant of Config (log entry 7). -/
def Launch.atReset : Launch :=
  { pmem := [], dmem0 := [], a0 := 0, b0 := 0, c0 := false, hc0 := false, ovf0 := false, compC0 := false, resetPc := 0,
    params := ⟨Params.allRam, Config.compbcPlusOne⟩ }

/-- The machine right after reset (R230): the launch state of `Launch.atReset`. -/
def State.reset : State := State.launch Launch.atReset

end Sys2Proof.Machine
end

