-- ==== Sys2Proof/Machine/Ops.lean ====
section
/-! DEFINITION. The primitives of R9: reads and writes of registers, flags and memory, the advance of `pc`, fetch, and the
refusal of the name-only instructions. The spec has no hardware exception, no trap entry and no trap return (R200, R208,
R209), so there is no operation that takes one. -/

namespace Sys2Proof.Machine

/-! ## Sparse memories: lists of (address, value) with strictly rising addresses -/

/-- The entry at an address, if there is one. -/
def Cells.lookup {β : Type} (k : Nat) : List (Nat × β) → Option β
  | [] => none
  | (j, w) :: rest => if k = j then some w else Cells.lookup k rest

/-- Put a value at an address, keeping the addresses strictly rising. -/
def Cells.insert {β : Type} (k : Nat) (v : β) : List (Nat × β) → List (Nat × β)
  | [] => [(k, v)]
  | (j, w) :: rest =>
    if k < j then (k, v) :: (j, w) :: rest
    else if k = j then (k, v) :: rest
    else (j, w) :: Cells.insert k v rest

/-- Remove the entry at an address. -/
def Cells.erase {β : Type} (k : Nat) : List (Nat × β) → List (Nat × β)
  | [] => []
  | (j, w) :: rest => if k = j then Cells.erase k rest else (j, w) :: Cells.erase k rest

/-- Addresses strictly rising. -/
abbrev Cells.Rising {β : Type} (m : List (Nat × β)) : Prop := m.Pairwise fun x y => x.1 < y.1

/-- The canonical form of data memory: addresses strictly rising and inside [0, 511], and no entry equal to what an
unlisted address reads as (log entry 5). -/
abbrev Memory.wf (m : Memory) : Prop :=
  Cells.Rising m ∧ ∀ e ∈ m, e.1 < Config.dataSize ∧ e.2 ≠ Config.unlistedByte

/-- The byte at a data address (R33). -/
def Memory.read (m : Memory) (addr : DataAddr) : Byte :=
  (Cells.lookup addr.toNat m).getD Config.unlistedByte

/-- Data memory with a byte written, in canonical form again. -/
def Memory.write (m : Memory) (addr : DataAddr) (v : Byte) : Memory :=
  if v = Config.unlistedByte then Cells.erase addr.toNat m else Cells.insert addr.toNat v m

/-- The canonical form of program memory: addresses strictly rising and inside [0, 16383] (log entry 1). -/
abbrev Slots.wf (m : Slots) : Prop :=
  Cells.Rising m ∧ ∀ e ∈ m, e.1 ≤ Config.lastProgAddr

/-- Program memory holding a list of terms at their addresses (R97, R233). A program is a partial map, so no address stands
twice in one; if one does in the list, the EARLIER entry wins, since the head is inserted last: DESIGN CHOICE, safe, log
entry 29. -/
def Slots.ofTerms : List (ProgAddr × Instr) → Slots
  | [] => []
  | (p, i) :: rest => Cells.insert p.toNat (encode i) (Slots.ofTerms rest)

/-! ## Registers and flags -/

/-- `x[r]` (R9). -/
def State.x (s : State) : Reg → Byte
  | .a => s.a
  | .b => s.b

/-- `x[r] <- v` (R9). -/
def State.setX (s : State) (r : Reg) (v : Byte) : State :=
  match r with
  | .a => { s with a := v }
  | .b => { s with b := v }

/-- `SR1.f` (R9). -/
def State.flag (s : State) : Flag → Bool
  | .c => s.sr1.c
  | .hc => s.sr1.hc
  | .ovf => s.sr1.ovf
  | .compC => s.sr1.compC

/-- `SR1.f <- v`: no other flag changes (R9). -/
def State.setFlag (s : State) (f : Flag) (v : Bool) : State :=
  match f with
  | .c => { s with sr1 := { s.sr1 with c := v } }
  | .hc => { s with sr1 := { s.sr1 with hc := v } }
  | .ovf => { s with sr1 := { s.sr1 with ovf := v } }
  | .compC => { s with sr1 := { s.sr1 with compC := v } }

/-- `halted <- true` (R30). -/
def State.setHalted (s : State) : State := { s with halted := true }

/-- The state with the outcome mark set (R207). -/
def State.setMark (s : State) (m : Mark) : State := { s with mark := some m }

/-! ## Control: R24 -/

/-- `pc <- target` (R9). -/
def State.setPc (s : State) (target : Nat) : State := { s with pc := target }

/-- `pc <- pc + 1`, without a wrap (R10, R24, R25; DESIGN CHOICE of the spec, D11, safe: log entry 12). -/
def State.advancePc (s : State) : State := s.setPc (s.pc + 1)

/-- `skip_if` of R121: the next instruction is executed (`pc + 1`) or skipped (`pc + 2`); that every instruction occupies
one address is a DESIGN CHOICE of the spec (D2, D12), unsafe if the chip differs: log entry 15. -/
def State.skipIf (s : State) (executeNext : Bool) : State :=
  if executeNext then s.setPc (s.pc + 1) else s.setPc (s.pc + 2)

/-! ## Memory: R50 to R53 -/

/-- A region holds an address. -/
def Region.holds (r : Region) (addr : DataAddr) : Bool := r.base ≤ addr.toNat && addr.toNat < r.base + r.size

/-- `addr in RAM_ADDRS` (R52). -/
def State.isRam (s : State) (addr : DataAddr) : Bool := s.params.ramAddrs.any fun r => r.holds addr

/-- `DMem[addr]` (R33). -/
def State.dmemAt (s : State) (addr : DataAddr) : Byte := s.dmem.read addr

/-- `MemRead(addr, 1)` (R52): the location's value in `RAM_ADDRS`, a refusal outside it (DESIGN CHOICE of the spec, D14,
safe: log entry 18). No side effect. -/
def State.memRead (s : State) (addr : DataAddr) : Except Refusal Byte :=
  if s.isRam addr then .ok (s.dmemAt addr) else .error (.peripheralRead addr)

/-- `MemWrite(addr, 1, v)` (R53): `DMem[addr] <- v` for `addr` in `RAM_ADDRS`; R53 defines nothing outside it (log entry
25). No admitted instruction calls it. -/
def State.memWrite (s : State) (addr : DataAddr) (v : Byte) : Option State :=
  if s.isRam addr then some { s with dmem := s.dmem.write addr v } else none

/-- What a program memory slot holds, as a word: none for an empty slot. -/
def State.slot (s : State) (p : Nat) : Option SreWord := Cells.lookup p s.pmem

/-- `PMem[p]`: the term at a program address, or none; an invalid word is no term (R34, R91). -/
def State.pmemAt (s : State) (p : Nat) : Option Instr :=
  match s.slot p with
  | none => none
  | some w =>
    match decode w with
    | .ok i => some i
    | .error _ => none

/-- The state with a slot filled, or emptied: loading a program, an act from outside the machine (R219, log entry 2). -/
def State.setSlot (s : State) (p : Nat) : Option SreWord → State
  | some w => { s with pmem := Cells.insert p w s.pmem }
  | none => { s with pmem := Cells.erase p s.pmem }

/-- Instruction fetch (R51): `PcOverflow` is checked before `NoInstruction` (R202). -/
def State.fetch (s : State) : Except ModelFault Instr :=
  if s.pc > Config.lastProgAddr then .error .pcOverflow
  else
    match s.pmemAt s.pc with
    | none => .error .noInstruction
    | some i => .ok i

/-! ## The name-only instructions: R205 -/

/-- `UNSPEC_SEM` (R6, D15): an optional meaning per term, for a later edition of the spec. Its default is none. -/
def unspecSem (_ : Instr) : Option (State → State) := none

/-- An instruction the source names without semantics: refused, unless `UNSPEC_SEM` supplies a meaning (R205). Nothing of
the step takes effect, `pc` included. DESIGN CHOICE of the spec (D15), safe: log entry 8. -/
def nameOnly (i : Instr) (s : State) : Result :=
  match unspecSem i with
  | none => .refused (.notInSource i.mnemonic)
  | some f => .next (f s)

end Sys2Proof.Machine
end

