-- ==== Sys2Proof/Machine/Operands.lean ====
section
/-! DEFINITION. Operands: what a written operand becomes (R85 to R88 of 30_encoding.md) and how a bit index selects a bit
(R8 of 00_scope.md). -/

namespace Sys2Proof.Machine

/-- `v[bit]`: bit 0 is the least significant (R8, R87). -/
def bitOf (v : Byte) (bit : BitIndex) : Bool := v.getLsbD bit.toNat

/-- R85: the operand value of a written literal L; a negative L becomes L + 256, an L outside [-128, 255] is rejected. -/
def literalOf (l : Int) : Option Byte :=
  if validLiteral l then
    some (if 0 ≤ l then BitVec.ofNat 8 l.toNat else BitVec.ofNat 8 (l + 256).toNat)
  else none

/-- R87: a written JMP address, unsigned and unchanged. -/
def targetOf (n : Int) : Option ProgAddr := if validTarget n then some (BitVec.ofNat 14 n.toNat) else none

/-- R87: a written data address, unsigned and unchanged. -/
def dataAddrOf (n : Int) : Option DataAddr := if validDataAddr n then some (BitVec.ofNat 9 n.toNat) else none

/-- R87: a written bit index, unsigned and unchanged. -/
def bitIndexOf (n : Int) : Option BitIndex := if validBit n then some (BitVec.ofNat 3 n.toNat) else none

/-- R88, R96: a written operand without a table, carried as a natural number. -/
def rawOf (n : Int) : Option Nat := if validRaw n then some n.toNat else none

end Sys2Proof.Machine
end

