-- ==== Sys2Proof/Machine/Basic.lean ====
section
/-! DEFINITION. Basic Instructions (R110 to R122 of 40_basic.md). -/

namespace Sys2Proof.Machine

/-- NOP (R110). -/
def execNop (s : State) : Result := .next s.advancePc

/-- HALT (R111): `halted <- true`, `pc <- pc + 1` (DESIGN CHOICE of the spec, D16; unsafe for a claim that reads `pc` in a
halted state: log entry 11). -/
def execHalt (s : State) : Result := .next s.setHalted.advancePc

/-- LITA lit (R112). -/
def execLita (lit : Byte) (s : State) : Result := .next (s.setX .a lit).advancePc

/-- LITB lit (R113). -/
def execLitb (lit : Byte) (s : State) : Result := .next (s.setX .b lit).advancePc

/-- CPY (R114): Register A into Register B. -/
def execCpy (s : State) : Result := .next (s.setX .b (s.x .a)).advancePc

/-- SWP (R115): both registers are read before either is written. -/
def execSwp (s : State) : Result := .next ((s.setX .a (s.x .b)).setX .b (s.x .a)).advancePc

/-- JMP addr (R116): absolute, no link, no delay slot. -/
def execJmp (addr : ProgAddr) (s : State) : Result := .next (s.setPc addr.toNat)

/-- IFRA bit (R117): the next instruction is executed when the bit of Register A is 0. -/
def execIfra (bit : BitIndex) (s : State) : Result := .next (s.skipIf (bitOf (s.x .a) bit == false))

/-- IFSA bit (R118): the next instruction is executed when the bit of Register A is 1. -/
def execIfsa (bit : BitIndex) (s : State) : Result := .next (s.skipIf (bitOf (s.x .a) bit == true))

/-- The shape of IFRM and IFSM (R119, R120): exactly one read decides; outside `RAM_ADDRS` it is refused (R206). -/
def skipOnMem (addr : DataAddr) (bit : BitIndex) (executeOn : Bool) (s : State) : Result :=
  match s.memRead addr with
  | .error r => .refused r
  | .ok v => .next (s.skipIf (bitOf v bit == executeOn))

/-- IFRM addr, bit (R119): the next instruction is executed when the bit in memory is 0. -/
def execIfrm (addr : DataAddr) (bit : BitIndex) (s : State) : Result := skipOnMem addr bit false s

/-- IFSM addr, bit (R120): the next instruction is executed when the bit in memory is 1. -/
def execIfsm (addr : DataAddr) (bit : BitIndex) (s : State) : Result := skipOnMem addr bit true s

end Sys2Proof.Machine
end

