-- ==== Sys2Proof/Machine/Flags.lean ====
section
/-! DEFINITION. The two summations of the instruction set and the flags they write: `add8` (R12 of 00_scope.md), the
addition flags (R130) and the negation (R141, R142 of 41_data_manipulation.md). -/

namespace Sys2Proof.Machine

/-- The result of `add8` (R12). -/
structure AddResult where
  r : Byte
  c : Bool
  hc : Bool
  ovf : Bool
deriving DecidableEq, Repr

/-- A carry-in as a 1-bit value. -/
def carryBit (cin : Bool) : BitVec 1 := BitVec.ofBool cin

/-- `add8` of R12: the 8-bit sum, the carry out of bit 7, the carry out of bit 3 (PRESUMED by the spec, D7) and the signed
overflow, the carry-in included (DESIGN CHOICE of the spec, D8). Unsafe if the chip differs: log entry 14. -/
def add8 (a b : Byte) (cin : Bool) : AddResult :=
  let s9 : BitVec 9 := a.setWidth 9 + b.setWidth 9 + (carryBit cin).setWidth 9
  let h5 : BitVec 5 := (a.extractLsb' 0 4).setWidth 5 + (b.extractLsb' 0 4).setWidth 5 + (carryBit cin).setWidth 5
  let r : Byte := s9.extractLsb' 0 8
  { r := r, c := s9.getLsbD 8, hc := h5.getLsbD 4,
    ovf := a.getLsbD 7 == b.getLsbD 7 && r.getLsbD 7 != a.getLsbD 7 }

/-- `write_add_flags` of R130: each flag is written with its new value, 1 or 0; COMP_C is not written. -/
def State.writeAddFlags (s : State) (c hc ovf : Bool) : State :=
  ((s.setFlag .c c).setFlag .hc hc).setFlag .ovf ovf

/-- The shape of every addition (R131 to R136): `x[d] <- x[d] + y + cin`, the addition flags, `pc + 1`. -/
def State.addInto (s : State) (d : Reg) (y : Byte) (cin : Bool) : State :=
  let t := add8 (s.x d) y cin
  ((s.setX d t.r).writeAddFlags t.c t.hc t.ovf).advancePc

/-- The result of the summation inside the negation process (R141, R142). -/
structure NegResult where
  r : Byte
  compC : Bool
deriving DecidableEq, Repr

/-- The summation inside the negation process: the inverse of `b`, plus the constant one if there is one, plus a carry-in
(R141, R142). That negation is inversion plus one is PRESUMED by the spec (G2); unsafe if the chip differs: log entry 27. -/
def negate8 (b : Byte) (plusOne cin : Bool) : NegResult :=
  let s9 : BitVec 9 := (~~~b).setWidth 9 + (carryBit plusOne).setWidth 9 + (carryBit cin).setWidth 9
  { r := s9.extractLsb' 0 8, compC := s9.getLsbD 8 }

/-- The shape of COMPB and COMPBC (R141, R142): Register B and COMP_C from the summation, `pc + 1`. -/
def State.negateB (s : State) (plusOne cin : Bool) : State :=
  let t := negate8 s.b plusOne cin
  ((s.setX .b t.r).setFlag .compC t.compC).advancePc

end Sys2Proof.Machine
end

