-- ==== Sys2Proof/Machine/DataManipulation.lean ====
section
/-! DEFINITION. Data Manipulation Instructions (R130 to R155 of 41_data_manipulation.md): ten with semantics, thirteen
the source names without any, which their rules refuse by name (R205, D15). -/

namespace Sys2Proof.Machine

/-! ## The ADD family -/

/-- ADD (R131). -/
def execAdd (s : State) : Result := .next (s.addInto .a (s.x .b) false)

/-- ADDC (R132): C before the step is carried in. -/
def execAddc (s : State) : Result := .next (s.addInto .a (s.x .b) (s.flag .c))

/-- ADDLA lit (R133). -/
def execAddla (lit : Byte) (s : State) : Result := .next (s.addInto .a lit false)

/-- ADDLAC lit (R134): C before the step is carried in. -/
def execAddlac (lit : Byte) (s : State) : Result := .next (s.addInto .a lit (s.flag .c))

/-- ADDLB lit (R135). -/
def execAddlb (lit : Byte) (s : State) : Result := .next (s.addInto .b lit false)

/-- ADDLBC lit (R136): C before the step is carried in. -/
def execAddlbc (lit : Byte) (s : State) : Result := .next (s.addInto .b lit (s.flag .c))

/-! ## The SUB family: headings only -/

/-- SUB (R137): named by the source without semantics, refused (R205). -/
def execSub (s : State) : Result := nameOnly .sub s

/-- SUBC (R138): named by the source without semantics, refused (R205). -/
def execSubc (s : State) : Result := nameOnly .subc s

/-- SUBL (R139): named by the source without semantics, refused (R205). -/
def execSubl (lit : Byte) (s : State) : Result := nameOnly (.subl lit) s

/-- SUBLC (R140): named by the source without semantics, refused (R205). -/
def execSublc (lit : Byte) (s : State) : Result := nameOnly (.sublc lit) s

/-! ## Negation -/

/-- COMPB (R141): inverse plus one, nothing carried in. -/
def execCompb (s : State) : Result := .next (s.negateB true false)

/-- COMPBC (R142): COMP_C before the step is carried in; whether the constant one is added as well is the open parameter
`COMPBC_PLUS_ONE`, taken from the state for both values (DESIGN CHOICE, safe: log entry 7). -/
def execCompbc (s : State) : Result := .next (s.negateB s.params.compbcPlusOne (s.flag .compC))

/-! ## Bitwise logic -/

/-- NOTA (R143). -/
def execNota (s : State) : Result := .next (s.setX .a (~~~(s.x .a))).advancePc

/-- AND (R144). -/
def execAnd (s : State) : Result := .next (s.setX .a (s.x .a &&& s.x .b)).advancePc

/-- ANDL (R145): named by the source without semantics, refused (R205). -/
def execAndl (lit : Byte) (s : State) : Result := nameOnly (.andl lit) s

/-- OR (R146): named by the source without semantics, refused (R205). -/
def execOr (s : State) : Result := nameOnly .or s

/-- ORL (R147): named by the source without semantics, refused (R205). -/
def execOrl (lit : Byte) (s : State) : Result := nameOnly (.orl lit) s

/-- XOR (R148): named by the source without semantics, refused (R205). -/
def execXor (s : State) : Result := nameOnly .xor s

/-- XORL (R149): named by the source without semantics, refused (R205). -/
def execXorl (lit : Byte) (s : State) : Result := nameOnly (.xorl lit) s

/-! ## Shifts: headings only -/

/-- SHFTR (R150): named by the source without semantics, refused (R205). -/
def execShftr (s : State) : Result := nameOnly .shftr s

/-- SHFTRL (R151): named by the source without semantics, refused (R205). -/
def execShftrl (lit : Byte) (s : State) : Result := nameOnly (.shftrl lit) s

/-- SHFTL (R152): named by the source without semantics, refused (R205). -/
def execShftl (s : State) : Result := nameOnly .shftl s

/-- SHFTLL (R153): named by the source without semantics, refused (R205). -/
def execShftll (lit : Byte) (s : State) : Result := nameOnly (.shftll lit) s

end Sys2Proof.Machine
end

