-- ==== Sys2Proof/Machine/HeapPeripheral.lean ====
section
/-! DEFINITION. Heap RAM & Peripheral Access Instructions (R170 to R177 of 42_heap_peripheral.md): seven
mnemonics the source names without a word of semantics. Each rule refuses its instruction by name (R205, D15). -/

namespace Sys2Proof.Machine

/-- SVA (R171): named by the source without semantics, refused (R205). -/
def execSva (raw : Nat) (s : State) : Result := nameOnly (.sva raw) s

/-- SVB (R172): named by the source without semantics, refused (R205). -/
def execSvb (raw : Nat) (s : State) : Result := nameOnly (.svb raw) s

/-- LDA (R173): named by the source without semantics, refused (R205). -/
def execLda (raw : Nat) (s : State) : Result := nameOnly (.lda raw) s

/-- LDB (R174): named by the source without semantics, refused (R205). -/
def execLdb (raw : Nat) (s : State) : Result := nameOnly (.ldb raw) s

/-- SVDP (R175): named by the source without semantics, refused (R205). -/
def execSvdp (s : State) : Result := nameOnly .svdp s

/-- SVDR (R176): named by the source without semantics, refused (R205). -/
def execSvdr (s : State) : Result := nameOnly .svdr s

/-- LDDR (R177): named by the source without semantics, refused (R205). -/
def execLddr (s : State) : Result := nameOnly .lddr s

end Sys2Proof.Machine
end

