-- ==== Sys2Proof/Machine/Stack.lean ====
section
/-! DEFINITION. Stack RAM Instructions (R180 to R195 of 43_stack.md): fifteen mnemonics the source names without a word
of semantics. Each rule refuses its instruction by name (R205, D15). -/

namespace Sys2Proof.Machine

/-- CALL (R181): named by the source without semantics, refused (R205). -/
def execCall (raw : Nat) (s : State) : Result := nameOnly (.call raw) s

/-- RTRN (R182): named by the source without semantics, refused (R205). -/
def execRtrn (s : State) : Result := nameOnly .rtrn s

/-- RTRNI (R183): named by the source without semantics, refused (R205). -/
def execRtrni (s : State) : Result := nameOnly .rtrni s

/-- POPA (R184): named by the source without semantics, refused (R205). -/
def execPopa (s : State) : Result := nameOnly .popa s

/-- POPB (R185): named by the source without semantics, refused (R205). -/
def execPopb (s : State) : Result := nameOnly .popb s

/-- POPM (R186): named by the source without semantics, refused (R205). -/
def execPopm (raw : Nat) (s : State) : Result := nameOnly (.popm raw) s

/-- PUSHA (R187): named by the source without semantics, refused (R205). -/
def execPusha (s : State) : Result := nameOnly .pusha s

/-- PUSHB (R188): named by the source without semantics, refused (R205). -/
def execPushb (s : State) : Result := nameOnly .pushb s

/-- PUSHM (R189): named by the source without semantics, refused (R205). -/
def execPushm (raw : Nat) (s : State) : Result := nameOnly (.pushm raw) s

/-- STLA (R190): named by the source without semantics, refused (R205). -/
def execStla (raw : Nat) (s : State) : Result := nameOnly (.stla raw) s

/-- STLB (R191): named by the source without semantics, refused (R205). -/
def execStlb (raw : Nat) (s : State) : Result := nameOnly (.stlb raw) s

/-- STSA (R192): named by the source without semantics, refused (R205). -/
def execStsa (raw : Nat) (s : State) : Result := nameOnly (.stsa raw) s

/-- STSB (R193): named by the source without semantics, refused (R205). -/
def execStsb (raw : Nat) (s : State) : Result := nameOnly (.stsb raw) s

/-- GROW (R194): named by the source without semantics, refused (R205). -/
def execGrow (raw : Nat) (s : State) : Result := nameOnly (.grow raw) s

/-- SHRINK (R195): named by the source without semantics, refused (R205). -/
def execShrink (raw : Nat) (s : State) : Result := nameOnly (.shrink raw) s

end Sys2Proof.Machine
end

