-- ==== Sys2Proof/Machine/Dispatch.lean ====
section
/-! DEFINITION. The meaning of every instruction: one arm per constructor, each ONE direct call of a meaning. -/

namespace Sys2Proof.Machine

def exec (i : Instr) (s : State) : Host.Outcome State Fault Refusal :=
  match i with
  -- Basic Instructions
  | .nop => Sys2Proof.Machine.execNop s
  | .halt => Sys2Proof.Machine.execHalt s
  | .lita lit => Sys2Proof.Machine.execLita lit s
  | .litb lit => Sys2Proof.Machine.execLitb lit s
  | .cpy => Sys2Proof.Machine.execCpy s
  | .swp => Sys2Proof.Machine.execSwp s
  | .jmp addr => Sys2Proof.Machine.execJmp addr s
  | .ifra bit => Sys2Proof.Machine.execIfra bit s
  | .ifsa bit => Sys2Proof.Machine.execIfsa bit s
  | .ifrm addr bit => Sys2Proof.Machine.execIfrm addr bit s
  | .ifsm addr bit => Sys2Proof.Machine.execIfsm addr bit s
  -- Data Manipulation Instructions
  | .add => Sys2Proof.Machine.execAdd s
  | .addc => Sys2Proof.Machine.execAddc s
  | .addla lit => Sys2Proof.Machine.execAddla lit s
  | .addlac lit => Sys2Proof.Machine.execAddlac lit s
  | .addlb lit => Sys2Proof.Machine.execAddlb lit s
  | .addlbc lit => Sys2Proof.Machine.execAddlbc lit s
  | .sub => Sys2Proof.Machine.execSub s
  | .subc => Sys2Proof.Machine.execSubc s
  | .subl lit => Sys2Proof.Machine.execSubl lit s
  | .sublc lit => Sys2Proof.Machine.execSublc lit s
  | .compb => Sys2Proof.Machine.execCompb s
  | .compbc => Sys2Proof.Machine.execCompbc s
  | .nota => Sys2Proof.Machine.execNota s
  | .and => Sys2Proof.Machine.execAnd s
  | .andl lit => Sys2Proof.Machine.execAndl lit s
  | .or => Sys2Proof.Machine.execOr s
  | .orl lit => Sys2Proof.Machine.execOrl lit s
  | .xor => Sys2Proof.Machine.execXor s
  | .xorl lit => Sys2Proof.Machine.execXorl lit s
  | .shftr => Sys2Proof.Machine.execShftr s
  | .shftrl lit => Sys2Proof.Machine.execShftrl lit s
  | .shftl => Sys2Proof.Machine.execShftl s
  | .shftll lit => Sys2Proof.Machine.execShftll lit s
  -- Heap RAM & Peripheral Access Instructions
  | .sva raw => Sys2Proof.Machine.execSva raw s
  | .svb raw => Sys2Proof.Machine.execSvb raw s
  | .lda raw => Sys2Proof.Machine.execLda raw s
  | .ldb raw => Sys2Proof.Machine.execLdb raw s
  | .svdp => Sys2Proof.Machine.execSvdp s
  | .svdr => Sys2Proof.Machine.execSvdr s
  | .lddr => Sys2Proof.Machine.execLddr s
  -- Stack RAM Instructions
  | .call raw => Sys2Proof.Machine.execCall raw s
  | .rtrn => Sys2Proof.Machine.execRtrn s
  | .rtrni => Sys2Proof.Machine.execRtrni s
  | .popa => Sys2Proof.Machine.execPopa s
  | .popb => Sys2Proof.Machine.execPopb s
  | .popm raw => Sys2Proof.Machine.execPopm raw s
  | .pusha => Sys2Proof.Machine.execPusha s
  | .pushb => Sys2Proof.Machine.execPushb s
  | .pushm raw => Sys2Proof.Machine.execPushm raw s
  | .stla raw => Sys2Proof.Machine.execStla raw s
  | .stlb raw => Sys2Proof.Machine.execStlb raw s
  | .stsa raw => Sys2Proof.Machine.execStsa raw s
  | .stsb raw => Sys2Proof.Machine.execStsb raw s
  | .grow raw => Sys2Proof.Machine.execGrow raw s
  | .shrink raw => Sys2Proof.Machine.execShrink raw s

end Sys2Proof.Machine
end

