-- ==== Sys2Proof/Machine/Step.lean ====
section
/-! DEFINITION. One step of the core (R10, R51, R207 of the spec), and the state in which the next step runs a given
word. -/

namespace Sys2Proof.Machine

/-- One step. A mark is final: its outcome is answered again (R207). A halted state has no step (R13, R218), answered as
the fault `halted` (DESIGN CHOICE, safe: log entry 9). Otherwise the
core fetches and executes exactly one instruction (R10). -/
def step (s : State) : Host.Outcome State Fault Refusal :=
  match s.mark with
  | some (.modelFault r) => .fault (.modelFault r)
  | some (.refused r) => .refused r
  | none =>
    if s.halted then .fault .halted
    else
      match s.fetch with
      | .error r => .fault (.modelFault r)
      | .ok i => exec i s

/-- The state with the word `w` in the slot at `pc`, so that the next step fetches it; a number that is no SRE-20 word
empties the slot. It stands for loading a program (log entry 2). -/
def State.withFetchWord (s : State) (nbits w : Nat) : State := s.setSlot s.pc (sreWordOf nbits w)

end Sys2Proof.Machine
end

