-- ==== Sys2Proof/Machine/Run.lean ====
section
/-! DEFINITION. Steps with their outcome marked in the state, and runs of them (R207, R218 of 60_exceptions.md). -/

namespace Sys2Proof.Machine

/-- The state after an outcome: a fault or a refusal sets the mark and nothing else of the step takes effect (R9, R207); a
halted state has no step and stays as it is (R218). -/
def State.record (s : State) : Result → State
  | .next t => t
  | .fault (.modelFault r) => s.setMark (.modelFault r)
  | .fault .halted => s
  | .refused r => s.setMark (.refused r)

/-- The next state of a run, the outcome marked in it. A halted or marked state is its own next state. -/
def State.advance (s : State) : State := s.record (step s)

/-- The state after `n` steps of a run. -/
def State.runFor : Nat → State → State
  | 0, s => s
  | n + 1, s => State.runFor n s.advance

end Sys2Proof.Machine
end

