-- ==== Sys2Proof/Machine/Timing.lean ====
section
/-! DEFINITION. The "Clock Cycles:" lines of the source, transcribed (R236, R237 of 70_reset_and_hazards.md). Timing
only: no rule depends on them and the model has no time (R238): log entry 23. -/

namespace Sys2Proof.Machine

/-- What the source gives for an instruction's clock cycles (R236, R237). -/
inductive CycleFigure where
  /-- A number. -/
  | figure (n : Nat)
  /-- The word "Undefined." (HALT): no count exists. -/
  | undefined
  /-- A "Clock Cycles:" line with nothing after the colon: an omission, neither zero nor "Undefined.". -/
  | blank
  /-- No "Clock Cycles:" line at all. -/
  | noLine
deriving DecidableEq, Repr

/-- The table of R236. -/
def clockCycles : Instr → CycleFigure
  | .nop => .figure 2
  | .halt => .undefined
  | .lita _ => .figure 2
  | .litb _ => .figure 2
  | .cpy => .figure 2
  | .swp => .figure 4
  | .jmp _ => .figure 2
  | .ifra _ => .figure 3
  | .ifsa _ => .figure 3
  | .ifrm _ _ => .figure 3
  | .ifsm _ _ => .figure 3
  | .add => .figure 2
  | .addc => .figure 2
  | .addla _ => .figure 2
  | .addlac _ => .figure 2
  | .addlb _ => .figure 2
  | .addlbc _ => .figure 2
  | .sub => .blank
  | .subc => .blank
  | .subl _ => .blank
  | .sublc _ => .blank
  | .compb => .blank
  | .compbc => .blank
  | .nota => .figure 2
  | .and => .figure 2
  | .andl _ => .noLine
  | .or => .noLine
  | .orl _ => .noLine
  | .xor => .noLine
  | .xorl _ => .noLine
  | .shftr => .noLine
  | .shftrl _ => .noLine
  | .shftl => .noLine
  | .shftll _ => .noLine
  | .sva _ => .noLine
  | .svb _ => .noLine
  | .lda _ => .noLine
  | .ldb _ => .noLine
  | .svdp => .noLine
  | .svdr => .noLine
  | .lddr => .noLine
  | .call _ => .noLine
  | .rtrn => .noLine
  | .rtrni => .noLine
  | .popa => .noLine
  | .popb => .noLine
  | .popm _ => .noLine
  | .pusha => .noLine
  | .pushb => .noLine
  | .pushm _ => .noLine
  | .stla _ => .noLine
  | .stlb _ => .noLine
  | .stsa _ => .noLine
  | .stsb _ => .noLine
  | .grow _ => .noLine
  | .shrink _ => .noLine

end Sys2Proof.Machine
end

