-- ==== Sys2Proof/Machine/Transcribe.lean ====
section
/-! DEFINITION. The transcriber of R94 (30_encoding.md): one instruction per line, mnemonic in upper case, decimal
operands separated by a comma; anything else is refused by line. Written operands become operand values as R85 to R88 say.
Log entry 24. -/

namespace Sys2Proof.Machine

/-- Why a line is refused (R94). -/
inductive LineError where
  /-- The line has not the shape of R94. -/
  | badShape
  /-- The mnemonic is none of the 56 of R82; LDDP is one such (R177). -/
  | unknownMnemonic
  /-- The number of operands is not the form's (R83). -/
  | operandCount
  /-- An operand is outside its valid range (R85, R87, D24, D25). -/
  | operandRange
deriving DecidableEq, Repr

/-- A line as written: a mnemonic and its decimal operands (R94). -/
structure SourceLine where
  mnemonic : String
  operands : List Int
deriving DecidableEq, Repr

/-! ## From a written line to a term -/

def asmNone (i : Instr) : List Int → Except LineError Instr
  | [] => .ok i
  | _ => .error .operandCount

/-- A range check's answer, an absent value being a refusal. -/
def inRange {α : Type} : Option α → Except LineError α
  | some v => .ok v
  | none => .error .operandRange

def asmLit (f : Byte → Instr) : List Int → Except LineError Instr
  | [l] => (inRange (literalOf l)).map f
  | _ => .error .operandCount

def asmTarget (f : ProgAddr → Instr) : List Int → Except LineError Instr
  | [n] => (inRange (targetOf n)).map f
  | _ => .error .operandCount

def asmBit (f : BitIndex → Instr) : List Int → Except LineError Instr
  | [n] => (inRange (bitIndexOf n)).map f
  | _ => .error .operandCount

/-- Two operands stand in the order address, then bit (R94). -/
def asmMemBit (f : DataAddr → BitIndex → Instr) : List Int → Except LineError Instr
  | [n, m] =>
    match dataAddrOf n, bitIndexOf m with
    | some addr, some bit => .ok (f addr bit)
    | _, _ => .error .operandRange
  | _ => .error .operandCount

def asmRaw (f : Nat → Instr) : List Int → Except LineError Instr
  | [n] => (inRange (rawOf n)).map f
  | _ => .error .operandCount

/-- The term of a mnemonic and its written operands (R82, R83). -/
def assembleAs (mnemonic : String) (ops : List Int) : Except LineError Instr :=
  match mnemonic with
  | "NOP" => asmNone .nop ops
  | "HALT" => asmNone .halt ops
  | "LITA" => asmLit .lita ops
  | "LITB" => asmLit .litb ops
  | "CPY" => asmNone .cpy ops
  | "SWP" => asmNone .swp ops
  | "JMP" => asmTarget .jmp ops
  | "IFRA" => asmBit .ifra ops
  | "IFSA" => asmBit .ifsa ops
  | "IFRM" => asmMemBit .ifrm ops
  | "IFSM" => asmMemBit .ifsm ops
  | "ADD" => asmNone .add ops
  | "ADDC" => asmNone .addc ops
  | "ADDLA" => asmLit .addla ops
  | "ADDLAC" => asmLit .addlac ops
  | "ADDLB" => asmLit .addlb ops
  | "ADDLBC" => asmLit .addlbc ops
  | "SUB" => asmNone .sub ops
  | "SUBC" => asmNone .subc ops
  | "SUBL" => asmLit .subl ops
  | "SUBLC" => asmLit .sublc ops
  | "COMPB" => asmNone .compb ops
  | "COMPBC" => asmNone .compbc ops
  | "NOTA" => asmNone .nota ops
  | "AND" => asmNone .and ops
  | "ANDL" => asmLit .andl ops
  | "OR" => asmNone .or ops
  | "ORL" => asmLit .orl ops
  | "XOR" => asmNone .xor ops
  | "XORL" => asmLit .xorl ops
  | "SHFTR" => asmNone .shftr ops
  | "SHFTRL" => asmLit .shftrl ops
  | "SHFTL" => asmNone .shftl ops
  | "SHFTLL" => asmLit .shftll ops
  | "SVA" => asmRaw .sva ops
  | "SVB" => asmRaw .svb ops
  | "LDA" => asmRaw .lda ops
  | "LDB" => asmRaw .ldb ops
  | "SVDP" => asmNone .svdp ops
  | "SVDR" => asmNone .svdr ops
  | "LDDR" => asmNone .lddr ops
  | "CALL" => asmRaw .call ops
  | "RTRN" => asmNone .rtrn ops
  | "RTRNI" => asmNone .rtrni ops
  | "POPA" => asmNone .popa ops
  | "POPB" => asmNone .popb ops
  | "POPM" => asmRaw .popm ops
  | "PUSHA" => asmNone .pusha ops
  | "PUSHB" => asmNone .pushb ops
  | "PUSHM" => asmRaw .pushm ops
  | "STLA" => asmRaw .stla ops
  | "STLB" => asmRaw .stlb ops
  | "STSA" => asmRaw .stsa ops
  | "STSB" => asmRaw .stsb ops
  | "GROW" => asmRaw .grow ops
  | "SHRINK" => asmRaw .shrink ops
  | _ => .error .unknownMnemonic

/-- The term a written line stands for. -/
def assemble (l : SourceLine) : Except LineError Instr := assembleAs l.mnemonic l.operands

/-- The operands of a term as the transcriber writes them: address before bit, each as its unsigned value (R86, R94). -/
def Operand.written : Operand → List Int
  | .none => []
  | .lit v => [v.toNat]
  | .target addr => [addr.toNat]
  | .bit b => [b.toNat]
  | .memBit addr b => [addr.toNat, b.toNat]
  | .rawA n | .rawO n | .rawS n => [n]

/-- A term written as a line; a literal comes out unsigned, since its written sign is gone (R85, R86). -/
def disassemble (i : Instr) : SourceLine := ⟨i.mnemonic, Operand.written i.operand⟩

/-! ## From a written line to characters -/

/-- A decimal integer, with a minus sign before a negative one and no other sign (R94). -/
def writeInt : Int → List Char
  | .ofNat n => Nat.toDigits 10 n
  | .negSucc n => '-' :: Nat.toDigits 10 (n + 1)

/-- The operands with a comma between two of them, and a number of spaces before and after each comma (R94). -/
def writeOperands (before after : Nat) : List Int → List Char
  | [] => []
  | [n] => writeInt n
  | n :: ns => writeInt n ++ List.replicate before ' ' ++ ',' :: (List.replicate after ' ' ++ writeOperands before after ns)

/-- A line as its characters: the mnemonic; then, if there are operands, a space and the operands (R94). The source's own
headings have no space before the comma and one after it. -/
def SourceLine.chars (before after : Nat) (l : SourceLine) : List Char :=
  match l.operands with
  | [] => l.mnemonic.toList
  | ops => l.mnemonic.toList ++ ' ' :: writeOperands before after ops

/-! ## From characters to a written line -/

/-- The value of a run of decimal digits, `acc` being what stands before it. -/
def digitsOf (acc : Nat) : List Char → Option Nat
  | [] => some acc
  | c :: cs => if c.isDigit then digitsOf (10 * acc + (c.toNat - '0'.toNat)) cs else none

/-- A decimal integer, with a minus sign before a negative one (R94). -/
def intOf : List Char → Option Int
  | [] => none
  | ['-'] => none
  | '-' :: cs => (digitsOf 0 cs).map fun n => -(n : Int)
  | cs => (digitsOf 0 cs).map fun n => (n : Int)

/-- Cut at the commas. -/
def splitCommas : List Char → List (List Char)
  | [] => [[]]
  | c :: cs =>
    if c = ',' then [] :: splitCommas cs
    else
      match splitCommas cs with
      | [] => [[c]]
      | w :: ws => (c :: w) :: ws

def dropSpaces (cs : List Char) : List Char := cs.dropWhile (· = ' ')

/-- The operands between the commas, with optional spaces around a comma. -/
def operandsOf : List (List Char) → Option (List Int)
  | [] => none
  | [w] => (intOf (dropSpaces w)).map fun n => [n]
  | w :: ws =>
    match intOf (dropSpaces (dropSpaces w).reverse).reverse, operandsOf ws with
    | some n, some ns => some (n :: ns)
    | _, _ => none

/-- A line of characters read as R94 says: an upper-case mnemonic; then, if there are operands, a space and the operands. -/
def readLine (cs : List Char) : Except LineError SourceLine :=
  let name := cs.takeWhile Char.isUpper
  match cs.dropWhile Char.isUpper with
  | [] => if name = [] then .error .badShape else .ok ⟨String.ofList name, []⟩
  | ' ' :: rest =>
    if name = [] then .error .badShape
    else
      match operandsOf (splitCommas rest) with
      | some ops => .ok ⟨String.ofList name, ops⟩
      | none => .error .badShape
  | _ => .error .badShape

/-- One line of a program (R94). -/
def transcribeLine (cs : List Char) : Except LineError Instr :=
  match readLine cs with
  | .ok l => assemble l
  | .error e => .error e

/-- A program, one instruction a line; the first line refused is named by its number, counted from `n` (R94). -/
def transcribe (n : Nat) : List (List Char) → Except (Nat × LineError) (List Instr)
  | [] => .ok []
  | l :: ls =>
    match transcribeLine l, transcribe (n + 1) ls with
    | .error e, _ => .error (n, e)
    | .ok _, .error e => .error e
    | .ok i, .ok is => .ok (i :: is)

end Sys2Proof.Machine
end

