-- ==== Sys2Proof/Safety.lean ====
section
/-! DEFINITION. The words in which claims are made: the end of a run and its observation (R218), the premises (R217, R233),
the invariant, and the spec's own tables of what each instruction reads and writes (R4, R22, R24, R155). -/

namespace Sys2Proof.Machine

/-! ## Runs -/

/-- A run has ended (R218). -/
def State.ended (s : State) : Bool := s.halted || s.mark.isSome

/-- The successful end of a run: halted, no outcome mark (R218). -/
def State.endedWell (s : State) : Bool := s.halted && s.mark.isNone

/-- What may be observed at the end of a run; `pc` may not (R218, D16). -/
structure Observation where
  a : Byte
  b : Byte
  sr1 : Sr1
  dmem : Memory
deriving DecidableEq, Repr

/-- The observation of a state (R218). -/
def State.observe (s : State) : Observation := ⟨s.a, s.b, s.sr1, s.dmem⟩

/-! ## Premises of a claim. `NoInterrupts` (R217) is about the platform: no interrupt and no second agent is in the model. -/

/-- `RamAt(S)` (R233). -/
abbrev RamAt (addrs : List DataAddr) (s : State) : Prop := ∀ addr ∈ addrs, s.isRam addr = true

/-- `ProgramAt(P)` (R97, R233). -/
abbrev ProgramAt (prog : List (ProgAddr × Instr)) (s : State) : Prop := ∀ e ∈ prog, s.pmemAt e.1.toNat = some e.2

/-! ## The invariant -/

/-- `pc` in its range (R25, R37), both memories canonical, and never both halted and marked (R207, R218). -/
structure State.Inv (s : State) : Prop where
  pcRange : s.pc ≤ 16385
  dmemWf : s.dmem.wf
  pmemWf : Slots.wf s.pmem
  oneEnd : s.halted = true → s.mark = none

/-! ## Frames -/

/-- Every data byte and every program slot reads as before. -/
def SameMemory (s t : State) : Prop :=
  (∀ addr : DataAddr, t.dmemAt addr = s.dmemAt addr) ∧ (∀ p : ProgAddr, t.slot p.toNat = s.slot p.toNat)

/-! ## The spec's tables -/

/-- The column `sem` of R82: true for the 21 instructions with semantics (R3), false for the 35 without (R4). -/
def specified : Instr → Bool
  | .nop | .halt | .lita _ | .litb _ | .cpy | .swp | .jmp _ | .ifra _ | .ifsa _ | .ifrm _ _ | .ifsm _ _
  | .add | .addc | .addla _ | .addlac _ | .addlb _ | .addlbc _ | .compb | .compbc | .nota | .and => true
  | .sub | .subc | .subl _ | .sublc _ | .andl _ | .or | .orl _ | .xor | .xorl _ | .shftr | .shftrl _ | .shftl
  | .shftll _ | .sva _ | .svb _ | .lda _ | .ldb _ | .svdp | .svdr | .lddr | .call _ | .rtrn | .rtrni | .popa
  | .popb | .popm _ | .pusha | .pushb | .pushm _ | .stla _ | .stlb _ | .stsa _ | .stsb _ | .grow _
  | .shrink _ => false

/-- The instructions that read Register A (R22). -/
def readsA : Instr → Bool
  | .cpy | .swp | .ifra _ | .ifsa _ | .add | .addc | .addla _ | .addlac _ | .nota | .and => true
  | _ => false

/-- The instructions that write Register A (R22). -/
def writesA : Instr → Bool
  | .lita _ | .swp | .add | .addc | .addla _ | .addlac _ | .nota | .and => true
  | _ => false

/-- The instructions that read Register B (R22). -/
def readsB : Instr → Bool
  | .swp | .add | .addc | .addlb _ | .addlbc _ | .compb | .compbc | .and => true
  | _ => false

/-- The instructions that write Register B (R22). -/
def writesB : Instr → Bool
  | .litb _ | .cpy | .swp | .addlb _ | .addlbc _ | .compb | .compbc => true
  | _ => false

/-- The instructions that write each flag (R155). -/
def writesFlag (f : Flag) (i : Instr) : Bool :=
  match f, i with
  | .compC, .compb | .compC, .compbc => true
  | .compC, _ => false
  | _, .add | _, .addc | _, .addla _ | _, .addlac _ | _, .addlb _ | _, .addlbc _ => true
  | _, _ => false

/-- The instructions that read each flag (R155); HC and OVF are read by none (R27, R28). -/
def readsFlag (f : Flag) (i : Instr) : Bool :=
  match f, i with
  | .c, .addc | .c, .addlac _ | .c, .addlbc _ => true
  | .compC, .compbc => true
  | _, _ => false

/-- The data address an instruction reads, if it reads one (R56). -/
def dataRead : Instr → Option DataAddr
  | .ifrm addr _ | .ifsm addr _ => some addr
  | _ => none

/-- The address of the next instruction (R24). -/
def nextPc (i : Instr) (s : State) : Nat :=
  match i with
  | .jmp addr => addr.toNat
  | .ifra bit => if s.a.getLsbD bit.toNat = false then s.pc + 1 else s.pc + 2
  | .ifsa bit => if s.a.getLsbD bit.toNat = true then s.pc + 1 else s.pc + 2
  | .ifrm addr bit => if (s.dmemAt addr).getLsbD bit.toNat = false then s.pc + 1 else s.pc + 2
  | .ifsm addr bit => if (s.dmemAt addr).getLsbD bit.toNat = true then s.pc + 1 else s.pc + 2
  | _ => s.pc + 1

/-- What R205 and the instruction's own rule say of a name-only instruction: refused by its name, nothing written but the
mark, its SRE-20 word and its clock-cycle line. -/
def RefusedByName (i : Instr) (name : String) (word : SreWord) (cycles : CycleFigure) : Prop :=
  (∀ s : State, exec i s = .refused (.notInSource name)) ∧
  (∀ s : State, s.record (exec i s) = { s with mark := some (.refused (.notInSource name)) }) ∧
  encode i = word ∧ clockCycles i = cycles

end Sys2Proof.Machine
end

