-- ==== Sys2Proof/Certificates/Slice0/Obligations.lean ====
section
/-! DEFINITION. Statements about the psMCU, each from the rules of spec/ that its docstring names. "Log entry n" is
notes/assumptions/n.md; a statement that rests on a decision the spec marks as its own (D<n>) says so. -/

open Sys2Proof Sys2Proof.Machine

/-! ## Encoding and the written form -/

/-- 30_encoding.md section 5: "Encoding then decoding a well-formed term gives the term back". SRE-20 is the spec's own
encoding (D3, D34), not the chip's; log entry 1. -/
def Obligations.DecodeOfEncodeIsTheTerm : Prop :=
  ∀ i : Instr, i.wellFormed = true → decode (encode i) = .ok i

/-- 30_encoding.md sections 5 and 9: "decoding then encoding a valid word gives the word back", and what is decoded is
well-formed (D25, D34). -/
def Obligations.EncodeOfDecodeIsTheWord : Prop :=
  ∀ (w : SreWord) (i : Instr), decode w = .ok i → encode i = w ∧ i.wellFormed = true

/-- 30_encoding.md section 5: a word is valid when it selects a row of the opcode table, the row is then unique, and it has
the decoded term's mnemonic and form (D3, D34). -/
def Obligations.ValidWordsAreThoseThatSelectARow : Prop :=
  (∀ w : SreWord, (∃ i, decode w = .ok i) ↔ ∃ r ∈ sreTable, r.selects w = true) ∧
  (∀ (w : SreWord), ∀ r ∈ sreTable, ∀ r' ∈ sreTable, r.selects w = true → r'.selects w = true → r = r') ∧
  (∀ (w : SreWord) (i : Instr), decode w = .ok i →
    ∃ r ∈ sreTable, r.selects w = true ∧ r.mnemonic = i.mnemonic ∧ r.form = i.form)

/-- 30_encoding.md section 5: an invalid word is refused for its ordinal above 55, or for a bit that must be zero (D34). -/
def Obligations.InvalidWordsAreRefusedByReason : Prop :=
  ∀ w : SreWord, (∀ i, decode w ≠ .ok i) →
    decode w = .error (if 55 < w.opnum.toNat then .opnumOutOfRange w.opnum.toNat else .nonZeroBit w.opnum.toNat)

/-- 95_test_vectors.md V6: nine words of SRE-20, every form and every family among them, and three invalid ones (D3). -/
def Obligations.SampleWordsDecode : Prop :=
  decode 0x04000 = .ok .halt ∧ decode 0x0C080 = .ok (.litb 128) ∧ decode 0x1BFFF = .ok (.jmp 16383) ∧
  decode 0x20003 = .ok (.ifsa 3) ∧ decode 0x28E10 = .ok (.ifsm 16 7) ∧ decode 0x40080 = .ok (.addlbc 128) ∧
  decode 0x88123 = .ok (.sva 291) ∧ decode 0xC8001 = .ok (.stla 1) ∧ decode 0xDFFFF = .ok (.shrink 16383) ∧
  decode 0x08100 = .error (.nonZeroBit 2) ∧ decode 0x25000 = .error (.nonZeroBit 9) ∧
  decode 0xE0000 = .error (.opnumOutOfRange 56)

/-- 30_encoding.md section 8 and 92_eei_decisions.md D27: a well-formed term written as a line of characters, with any number of
spaces before and after a comma, and read by the transcriber is the same term; and so is its mnemonic with its operand list.
That spaces may stand on both sides of a comma is log entry 24. -/
def Obligations.TranscribedTermIsTheTerm : Prop :=
  ∀ i : Instr, i.wellFormed = true →
    assemble (disassemble i) = .ok i ∧
    ∀ before after : Nat, transcribeLine ((disassemble i).chars before after) = .ok i

/-- 30_encoding.md section 4 (literal assembly, D24): a literal in [-128, 255] becomes its value modulo 256, and any other is
rejected. -/
def Obligations.LiteralIsTakenModulo256 : Prop :=
  (∀ l : Int, -128 ≤ l → l ≤ 255 → ∃ v, literalOf l = some v ∧ (v.toNat : Int) = l % 256) ∧
  (∀ l : Int, l < -128 ∨ 255 < l → literalOf l = none)

/-- 30_encoding.md section 4 (literal aliasing, derived there): L and L + 256 denote the same term in each of the thirteen
instructions with a literal, for L in [-128, -1]. -/
def Obligations.NegativeLiteralAliasesItsComplement : Prop :=
  ∀ m ∈ ["LITA", "LITB", "ADDLA", "ADDLAC", "ADDLB", "ADDLBC", "SUBL", "SUBLC", "ANDL", "ORL", "XORL", "SHFTRL", "SHFTLL"],
    ∀ l : Int, -128 ≤ l → l ≤ -1 → ∃ i, assemble ⟨m, [l]⟩ = .ok i ∧ assemble ⟨m, [l + 256]⟩ = .ok i

/-- 30_encoding.md section 4 (address and bit operands, D25): a written address or bit index in its valid range is used
unchanged, and one outside is rejected. -/
def Obligations.AddressAndBitOperandsAreUsedUnchanged : Prop :=
  (∀ n : Int, 0 ≤ n → n ≤ 16383 → ∃ v, targetOf n = some v ∧ (v.toNat : Int) = n) ∧
  (∀ n : Int, 0 ≤ n → n ≤ 511 → ∃ v, dataAddrOf n = some v ∧ (v.toNat : Int) = n) ∧
  (∀ n : Int, 0 ≤ n → n ≤ 7 → ∃ v, bitIndexOf n = some v ∧ (v.toNat : Int) = n) ∧
  (∀ n : Int, n < 0 ∨ 16383 < n → targetOf n = none) ∧
  (∀ n : Int, n < 0 ∨ 511 < n → dataAddrOf n = none) ∧
  (∀ n : Int, n < 0 ∨ 7 < n → bitIndexOf n = none)

/-! ## Basic Instructions -/

/-- 40_basic.md, the NOP entry: NOP advances `pc` and does nothing else; at 16383 it succeeds and the next fetch is PcOverflow.
That `pc` does not wrap and the fetch past 16383 stops is the spec's own choice D11, log entry 12; that nothing else changes is
its frame rule D5, log entry 13. -/
def Obligations.NopOnlyAdvancesPc : Prop :=
  (∀ s : State, exec .nop s = .next { s with pc := s.pc + 1 }) ∧
  (∀ s : State, State.fetch { s with pc := 16383 + 1 } = .error .pcOverflow) ∧
  encode .nop = 0x00000 ∧ clockCycles .nop = .figure 2

/-- 40_basic.md, HALT: the core halts with registers, flags and memory as they were. That `pc` is left at `pc + 1` is the
spec's own choice D16, log entry 11. -/
def Obligations.HaltSetsHaltedOnly : Prop :=
  (∀ s : State, exec .halt s = .next { s with halted := true, pc := s.pc + 1 }) ∧
  encode .halt = 0x04000 ∧ clockCycles .halt = .undefined

/-- R112 and R113: LITA and LITB load their literal into Register A and Register B. The corner cases are the written literals
-1, 255, -128, 128 and 0 of LITA and the example 200 of LITB. That the flags are kept is what both rules say ("Flags written:
none") and the spec's frame rule D5, log entry 13. -/
def Obligations.LoadLiteralIntoRegister : Prop :=
  (∀ (lit : Byte) (s : State), exec (.lita lit) s = .next { s with a := lit, pc := s.pc + 1 }) ∧
  (∀ (lit : Byte) (s : State), exec (.litb lit) s = .next { s with b := lit, pc := s.pc + 1 }) ∧
  (∀ lit : Byte, encode (.lita lit) = 0x08000 + lit.setWidth 20 ∧ encode (.litb lit) = 0x0C000 + lit.setWidth 20) ∧
  (∀ lit : Byte, clockCycles (.lita lit) = .figure 2 ∧ clockCycles (.litb lit) = .figure 2) ∧
  assemble ⟨"LITA", [-1]⟩ = .ok (.lita 0xFF) ∧ assemble ⟨"LITA", [255]⟩ = .ok (.lita 0xFF) ∧ assemble ⟨"LITA", [-128]⟩ = .ok (.lita 0x80) ∧
  assemble ⟨"LITA", [128]⟩ = .ok (.lita 0x80) ∧ assemble ⟨"LITA", [0]⟩ = .ok (.lita 0x00) ∧
  assemble ⟨"LITB", [200]⟩ = .ok (.litb 0xC8)

/-- R114 and R115: CPY copies A into B, SWP exchanges them; SWP then CPY leaves both registers holding the old B, and two SWP
restore the pair. -/
def Obligations.CopyAndSwapRegisters : Prop :=
  (∀ s : State, exec .cpy s = .next { s with b := s.a, pc := s.pc + 1 }) ∧
  (∀ s : State, exec .swp s = .next { s with a := s.b, b := s.a, pc := s.pc + 1 }) ∧
  (∀ s t u : State, exec .swp s = .next t → exec .cpy t = .next u → u.a = s.b ∧ u.b = s.b) ∧
  (∀ s t u : State, exec .swp s = .next t → exec .swp t = .next u → u.a = s.a ∧ u.b = s.b) ∧
  encode .cpy = 0x10000 ∧ encode .swp = 0x14000 ∧ clockCycles .cpy = .figure 2 ∧ clockCycles .swp = .figure 4

/-- 40_basic.md, the JMP entry: JMP goes to its address and changes nothing else; every 14-bit target is legal, and the fetch
there is NoInstruction when the slot holds no term. That an empty slot is NoInstruction is the spec's own choice D33; that a slot
with an invalid word holds no term is the model's form of program memory, log entry 1. -/
def Obligations.JumpGoesToItsAddress : Prop :=
  (∀ (addr : ProgAddr) (s : State), exec (.jmp addr) s = .next { s with pc := addr.toNat }) ∧
  (∀ (addr : ProgAddr) (s t : State), exec (.jmp addr) s = .next t → s.pmemAt addr.toNat = none →
    t.fetch = .error .noInstruction) ∧
  (∀ addr : ProgAddr, encode (.jmp addr) = 0x18000 + addr.setWidth 20 ∧ clockCycles (.jmp addr) = .figure 2)

/-- 40_basic.md, the IFRA and IFSA entries: IFRA executes the next instruction when the bit of Register A is 0, IFSA when it is
1; otherwise it is skipped. For the same A and bit exactly one of the two skips. That a skip is of one address, to `pc + 2`, is
the spec's own choice D2 and D12, log entry 15. -/
def Obligations.SkipOnBitOfRegisterA : Prop :=
  (∀ (bit : BitIndex) (s : State), exec (.ifra bit) s =
    .next { s with pc := if s.a.getLsbD bit.toNat = false then s.pc + 1 else s.pc + 2 }) ∧
  (∀ (bit : BitIndex) (s : State), exec (.ifsa bit) s =
    .next { s with pc := if s.a.getLsbD bit.toNat = true then s.pc + 1 else s.pc + 2 }) ∧
  (∀ (bit : BitIndex) (s t u : State), exec (.ifra bit) s = .next t → exec (.ifsa bit) s = .next u →
    t.pc = s.pc + 2 ∧ u.pc = s.pc + 1 ∨ t.pc = s.pc + 1 ∧ u.pc = s.pc + 2) ∧
  (∀ bit : BitIndex, encode (.ifra bit) = 0x1C000 + bit.setWidth 20 ∧ encode (.ifsa bit) = 0x20000 + bit.setWidth 20) ∧
  (∀ bit : BitIndex, clockCycles (.ifra bit) = .figure 3 ∧ clockCycles (.ifsa bit) = .figure 3)

/-- 40_basic.md, the IFRM and IFSM entries: IFRM and IFSM test a bit of a data location; in `RAM_ADDRS` they complete, outside it
they are refused. The refusal is the spec's own choice D14, log entry 18; that a skip is to `pc + 2` is its D2 and D12, log entry
15. -/
def Obligations.SkipOnBitInMemory : Prop :=
  (∀ (addr : DataAddr) (bit : BitIndex) (s : State), s.isRam addr = true → exec (.ifrm addr bit) s =
    .next { s with pc := if (s.dmemAt addr).getLsbD bit.toNat = false then s.pc + 1 else s.pc + 2 }) ∧
  (∀ (addr : DataAddr) (bit : BitIndex) (s : State), s.isRam addr = true → exec (.ifsm addr bit) s =
    .next { s with pc := if (s.dmemAt addr).getLsbD bit.toNat = true then s.pc + 1 else s.pc + 2 }) ∧
  (∀ (addr : DataAddr) (bit : BitIndex) (s : State), s.isRam addr = false →
    exec (.ifrm addr bit) s = .refused (.peripheralRead addr) ∧ exec (.ifsm addr bit) s = .refused (.peripheralRead addr)) ∧
  (∀ (addr : DataAddr) (bit : BitIndex),
    encode (.ifrm addr bit) = 0x24000 + bit.setWidth 20 <<< 9 + addr.setWidth 20 ∧
    encode (.ifsm addr bit) = 0x28000 + bit.setWidth 20 <<< 9 + addr.setWidth 20 ∧
    clockCycles (.ifrm addr bit) = .figure 3 ∧ clockCycles (.ifsm addr bit) = .figure 3)

/-! ## Data Manipulation Instructions -/

/-- R131 and R132: ADD and ADDC write `add8` of A and B to A and the three addition flags; COMP_C and B are kept. What the
flags of `add8` mean is `Add8MeetsTheArithmeticLaws`. -/
def Obligations.AddRegisters : Prop :=
  (∀ s : State, exec .add s = .next { s with
    a := (add8 s.a s.b false).r
    sr1 := ⟨(add8 s.a s.b false).c, (add8 s.a s.b false).hc, (add8 s.a s.b false).ovf, s.sr1.compC⟩
    pc := s.pc + 1 }) ∧
  (∀ s : State, exec .addc s = .next { s with
    a := (add8 s.a s.b s.sr1.c).r
    sr1 := ⟨(add8 s.a s.b s.sr1.c).c, (add8 s.a s.b s.sr1.c).hc, (add8 s.a s.b s.sr1.c).ovf, s.sr1.compC⟩
    pc := s.pc + 1 }) ∧
  encode .add = 0x2C000 ∧ encode .addc = 0x30000 ∧ clockCycles .add = .figure 2 ∧ clockCycles .addc = .figure 2

/-- R133 and R134: ADDLA and ADDLAC write `add8` of A and the literal to A and the three addition flags. -/
def Obligations.AddLiteralToA : Prop :=
  (∀ (lit : Byte) (s : State), exec (.addla lit) s = .next { s with
    a := (add8 s.a lit false).r
    sr1 := ⟨(add8 s.a lit false).c, (add8 s.a lit false).hc, (add8 s.a lit false).ovf, s.sr1.compC⟩
    pc := s.pc + 1 }) ∧
  (∀ (lit : Byte) (s : State), exec (.addlac lit) s = .next { s with
    a := (add8 s.a lit s.sr1.c).r
    sr1 := ⟨(add8 s.a lit s.sr1.c).c, (add8 s.a lit s.sr1.c).hc, (add8 s.a lit s.sr1.c).ovf, s.sr1.compC⟩
    pc := s.pc + 1 }) ∧
  (∀ lit : Byte, encode (.addla lit) = 0x34000 + lit.setWidth 20 ∧ encode (.addlac lit) = 0x38000 + lit.setWidth 20 ∧
    clockCycles (.addla lit) = .figure 2 ∧ clockCycles (.addlac lit) = .figure 2)

/-- R135 and R136: ADDLB and ADDLBC write `add8` of B and the literal to B and the same three flags. -/
def Obligations.AddLiteralToB : Prop :=
  (∀ (lit : Byte) (s : State), exec (.addlb lit) s = .next { s with
    b := (add8 s.b lit false).r
    sr1 := ⟨(add8 s.b lit false).c, (add8 s.b lit false).hc, (add8 s.b lit false).ovf, s.sr1.compC⟩
    pc := s.pc + 1 }) ∧
  (∀ (lit : Byte) (s : State), exec (.addlbc lit) s = .next { s with
    b := (add8 s.b lit s.sr1.c).r
    sr1 := ⟨(add8 s.b lit s.sr1.c).c, (add8 s.b lit s.sr1.c).hc, (add8 s.b lit s.sr1.c).ovf, s.sr1.compC⟩
    pc := s.pc + 1 }) ∧
  (∀ lit : Byte, encode (.addlb lit) = 0x3C000 + lit.setWidth 20 ∧ encode (.addlbc lit) = 0x40000 + lit.setWidth 20 ∧
    clockCycles (.addlb lit) = .figure 2 ∧ clockCycles (.addlbc lit) = .figure 2)

/-- 41_data_manipulation.md section 7 and 00_scope.md section 5: the exact definitions of the sum, C, HC and OVF. That HC is the
carry out of bit 3 and that OVF takes the carry-in part are the spec's own D7 and D8, log entry 14. -/
def Obligations.Add8MeetsTheArithmeticLaws : Prop :=
  ∀ (a b : Byte) (cin : Bool),
    (add8 a b cin).r.toNat = (a.toNat + b.toNat + cin.toNat) % 256 ∧
    ((add8 a b cin).c = true ↔ 256 ≤ a.toNat + b.toNat + cin.toNat) ∧
    ((add8 a b cin).hc = true ↔ 16 ≤ a.toNat % 16 + b.toNat % 16 + cin.toNat) ∧
    ((add8 a b cin).ovf = true ↔
      a.toInt + b.toInt + cin.toNat < -128 ∨ 127 < a.toInt + b.toInt + cin.toNat)

/-- 41_data_manipulation.md sections 2 and 7: ADDLA on the low byte, then ADDLAC on the high byte with the C it left, is the
16-bit addition, and C is its carry out. -/
def Obligations.TwoByteAdditionByLiterals : Prop :=
  ∀ (lo hi : Byte) (s t u v : State), exec (.addla lo) s = .next t → u.sr1.c = t.sr1.c → exec (.addlac hi) u = .next v →
    (v.a ++ t.a : BitVec 16) = (u.a ++ s.a : BitVec 16) + (hi ++ lo : BitVec 16) ∧
    (v.sr1.c = true ↔ 65536 ≤ (u.a ++ s.a : BitVec 16).toNat + (hi ++ lo : BitVec 16).toNat)

/-- 41_data_manipulation.md sections 4 and 7: COMPB negates B modulo 256, COMP_C is 1 exactly when B was 0, and C, HC, OVF and A
are kept. That negation is inversion plus one is the spec's general knowledge G2, log entry 27. -/
def Obligations.CompbNegatesRegisterB : Prop :=
  (∀ s : State, ∃ t, exec .compb s = .next t ∧
    t = { s with b := t.b, sr1 := { s.sr1 with compC := t.sr1.compC }, pc := s.pc + 1 } ∧
    t.b.toNat = (256 - s.b.toNat) % 256 ∧ (t.sr1.compC = true ↔ s.b = 0)) ∧
  (∀ s t u : State, exec .compb s = .next t → exec .compb t = .next u → u.b = s.b) ∧
  encode .compb = 0x54000 ∧ clockCycles .compb = .blank

/-- 41_data_manipulation.md section 4 and 90_conflicts.md C5: COMPBC under both readings of its summation; which one the machine
has is the open parameter `COMPBC_PLUS_ONE` (D10, log entry 7), and the statement holds for both of its values. -/
def Obligations.CompbcUnderBothReadings : Prop :=
  (∀ s : State, s.params.compbcPlusOne = true → ∃ t, exec .compbc s = .next t ∧
    t = { s with b := t.b, sr1 := { s.sr1 with compC := t.sr1.compC }, pc := s.pc + 1 } ∧
    t.b.toNat = (255 - s.b.toNat + 1 + s.sr1.compC.toNat) % 256 ∧
    (t.sr1.compC = true ↔ 256 ≤ 255 - s.b.toNat + 1 + s.sr1.compC.toNat)) ∧
  (∀ s : State, s.params.compbcPlusOne = false → ∃ t, exec .compbc s = .next t ∧
    t = { s with b := t.b, sr1 := { s.sr1 with compC := t.sr1.compC }, pc := s.pc + 1 } ∧
    t.b.toNat = (255 - s.b.toNat + s.sr1.compC.toNat) % 256 ∧
    (t.sr1.compC = true ↔ 256 ≤ 255 - s.b.toNat + s.sr1.compC.toNat)) ∧
  encode .compbc = 0x58000 ∧ clockCycles .compbc = .blank

/-- 41_data_manipulation.md section 4: COMPB on the low byte, then COMPBC on the high byte with the COMP_C it left, negates a
two-byte number under reading (b); under reading (a) the high byte is one too large (D10, log entry 7). -/
def Obligations.TwoByteNegationNeedsReadingB : Prop :=
  (∀ s t u v : State, exec .compb s = .next t → u.sr1.compC = t.sr1.compC → u.params.compbcPlusOne = false →
    exec .compbc u = .next v → (v.b ++ t.b : BitVec 16) = -(u.b ++ s.b : BitVec 16)) ∧
  (∀ s t u v : State, exec .compb s = .next t → u.sr1.compC = t.sr1.compC → u.params.compbcPlusOne = true →
    exec .compbc u = .next v → (v.b ++ t.b : BitVec 16) = -(u.b ++ s.b : BitVec 16) + 0x0100)

/-- R143: NOTA inverts each bit of A, which is 0xFF - A; no flag is written; twice restores A. -/
def Obligations.NotaInvertsRegisterA : Prop :=
  (∀ s : State, ∃ t, exec .nota s = .next t ∧ t = { s with a := t.a, pc := s.pc + 1 } ∧
    (∀ k, k < 8 → t.a.getLsbD k = !s.a.getLsbD k) ∧ t.a.toNat = 0xFF - s.a.toNat) ∧
  (∀ s t u : State, exec .nota s = .next t → exec .nota t = .next u → u.a = s.a) ∧
  encode .nota = 0x5C000 ∧ clockCycles .nota = .figure 2

/-- R144: bit i of the result of AND is 1 exactly when bit i of both registers is 1; no flag is written and B is kept. -/
def Obligations.AndIsBitwise : Prop :=
  (∀ s : State, ∃ t, exec .and s = .next t ∧ t = { s with a := t.a, pc := s.pc + 1 } ∧
    (∀ k, t.a.getLsbD k = true ↔ s.a.getLsbD k = true ∧ s.b.getLsbD k = true)) ∧
  (∀ s t : State, exec .and s = .next t → (s.a = s.b → t.a = s.a) ∧ (s.b = 0 → t.a = 0) ∧ (s.b = 0xFF → t.a = s.a)) ∧
  encode .and = 0x60000 ∧ clockCycles .and = .figure 2

/-! ## The name-only instructions, refused by their rules (the spec's own decision D15, log entry 8) -/

/-- R137 to R140: the SUB family is refused by name and writes nothing (D15). -/
def Obligations.SubFamilyIsRefused : Prop :=
  RefusedByName .sub "SUB" 0x44000 .blank ∧ RefusedByName .subc "SUBC" 0x48000 .blank ∧
  ∀ lit : Byte, RefusedByName (.subl lit) "SUBL" (0x4C000 + lit.setWidth 20) .blank ∧
    RefusedByName (.sublc lit) "SUBLC" (0x50000 + lit.setWidth 20) .blank

/-- R145 to R149: ANDL, OR, ORL, XOR, XORL are refused by name and write nothing (D15). -/
def Obligations.LogicNamesAreRefused : Prop :=
  RefusedByName .or "OR" 0x68000 .noLine ∧ RefusedByName .xor "XOR" 0x70000 .noLine ∧
  ∀ lit : Byte, RefusedByName (.andl lit) "ANDL" (0x64000 + lit.setWidth 20) .noLine ∧
    RefusedByName (.orl lit) "ORL" (0x6C000 + lit.setWidth 20) .noLine ∧
    RefusedByName (.xorl lit) "XORL" (0x74000 + lit.setWidth 20) .noLine

/-- R150 to R153: the shifts are refused by name and write nothing (D15). -/
def Obligations.ShiftNamesAreRefused : Prop :=
  RefusedByName .shftr "SHFTR" 0x78000 .noLine ∧ RefusedByName .shftl "SHFTL" 0x80000 .noLine ∧
  ∀ lit : Byte, RefusedByName (.shftrl lit) "SHFTRL" (0x7C000 + lit.setWidth 20) .noLine ∧
    RefusedByName (.shftll lit) "SHFTLL" (0x84000 + lit.setWidth 20) .noLine

/-- R171 to R177: the heap RAM and peripheral access instructions are refused by name and write nothing (D15). The word is
the rule's, 88000 + raw and so on, for raw at most 16383, the bound of a well-formed term; above it the truncation to 14 bits is
the model's own choice, log entry 22. -/
def Obligations.HeapNamesAreRefused : Prop :=
  RefusedByName .svdp "SVDP" 0x98000 .noLine ∧ RefusedByName .svdr "SVDR" 0x9C000 .noLine ∧
  RefusedByName .lddr "LDDR" 0xA0000 .noLine ∧
  ∀ raw : Nat, RefusedByName (.sva raw) "SVA" (0x88000 + (BitVec.ofNat 14 raw).setWidth 20) .noLine ∧
    RefusedByName (.svb raw) "SVB" (0x8C000 + (BitVec.ofNat 14 raw).setWidth 20) .noLine ∧
    RefusedByName (.lda raw) "LDA" (0x90000 + (BitVec.ofNat 14 raw).setWidth 20) .noLine ∧
    RefusedByName (.ldb raw) "LDB" (0x94000 + (BitVec.ofNat 14 raw).setWidth 20) .noLine

/-- R181 to R189: CALL, the returns, the pops and the pushes are refused by name and write nothing (D15). The words of CALL,
POPM and PUSHM are the rules' for raw at most 16383; above it the truncation to 14 bits is the model's own choice, log entry 22. -/
def Obligations.CallPopPushNamesAreRefused : Prop :=
  RefusedByName .rtrn "RTRN" 0xA8000 .noLine ∧ RefusedByName .rtrni "RTRNI" 0xAC000 .noLine ∧
  RefusedByName .popa "POPA" 0xB0000 .noLine ∧ RefusedByName .popb "POPB" 0xB4000 .noLine ∧
  RefusedByName .pusha "PUSHA" 0xBC000 .noLine ∧ RefusedByName .pushb "PUSHB" 0xC0000 .noLine ∧
  ∀ raw : Nat, RefusedByName (.call raw) "CALL" (0xA4000 + (BitVec.ofNat 14 raw).setWidth 20) .noLine ∧
    RefusedByName (.popm raw) "POPM" (0xB8000 + (BitVec.ofNat 14 raw).setWidth 20) .noLine ∧
    RefusedByName (.pushm raw) "PUSHM" (0xC4000 + (BitVec.ofNat 14 raw).setWidth 20) .noLine

/-- R190 to R195: the stack offset and frame instructions are refused by name and write nothing (D15). The words are the
rules' for raw at most 16383; above it the truncation to 14 bits is the model's own choice, log entry 22. -/
def Obligations.StackFrameNamesAreRefused : Prop :=
  ∀ raw : Nat, RefusedByName (.stla raw) "STLA" (0xC8000 + (BitVec.ofNat 14 raw).setWidth 20) .noLine ∧
    RefusedByName (.stlb raw) "STLB" (0xCC000 + (BitVec.ofNat 14 raw).setWidth 20) .noLine ∧
    RefusedByName (.stsa raw) "STSA" (0xD0000 + (BitVec.ofNat 14 raw).setWidth 20) .noLine ∧
    RefusedByName (.stsb raw) "STSB" (0xD4000 + (BitVec.ofNat 14 raw).setWidth 20) .noLine ∧
    RefusedByName (.grow raw) "GROW" (0xD8000 + (BitVec.ofNat 14 raw).setWidth 20) .noLine ∧
    RefusedByName (.shrink raw) "SHRINK" (0xDC000 + (BitVec.ofNat 14 raw).setWidth 20) .noLine

/-! ## Every instruction: completion, frame, tables -/

/-- 00_scope.md section 3: each of the 21 specified instructions answers a next state, provided that the data address it reads,
if it reads one, is in `RAM_ADDRS` (D14). -/
def Obligations.SpecifiedInstructionsComplete : Prop :=
  ∀ (i : Instr) (s : State), specified i = true → (∀ addr, dataRead i = some addr → s.isRam addr = true) →
    ∃ t, exec i s = .next t

/-- 60_exceptions.md section 4 (D14, D15, D18): the only refusals are that of a name-only instruction, by its own mnemonic, and
that of a read outside `RAM_ADDRS`; no instruction faults. -/
def Obligations.RefusalsAreExactlyThoseOfTheSpec : Prop :=
  (∀ (i : Instr) (s : State) (r : Refusal), exec i s = .refused r ↔
    specified i = false ∧ r = .notInSource i.mnemonic ∨
    ∃ addr, dataRead i = some addr ∧ s.isRam addr = false ∧ r = .peripheralRead addr) ∧
  (∀ (i : Instr) (s : State) (r : Fault), exec i s ≠ .fault r)

/-- 10_state.md section 2: the address of the next instruction, for every instruction that completes. HALT's `pc + 1` is D16. -/
def Obligations.NextPcFollowsTheTable : Prop :=
  ∀ (i : Instr) (s t : State), exec i s = .next t → t.pc = nextPc i s

/-- 00_scope.md section 5 (frame rule, D5, log entry 13) and 20_memory.md section 4: no instruction changes a byte of data memory,
a slot of program memory, the mark or a parameter of the run, and none but HALT the halted condition. -/
def Obligations.FrameOfEveryInstruction : Prop :=
  ∀ (i : Instr) (s t : State), exec i s = .next t →
    SameMemory s t ∧ t.mark = s.mark ∧ t.params = s.params ∧ (i ≠ .halt → t.halted = s.halted)

/-- 10_state.md section 1: an instruction leaves Register A or B unchanged unless the table says that it writes it. -/
def Obligations.UnwrittenRegistersAreKept : Prop :=
  ∀ (i : Instr) (s t : State), exec i s = .next t →
    (writesA i = false → t.a = s.a) ∧ (writesB i = false → t.b = s.b)

/-- 10_state.md section 1: an instruction that the table does not list as reading a register does the same whatever the register
holds. -/
def Obligations.UnreadRegistersDoNotMatter : Prop :=
  (∀ (i : Instr) (s t : State) (v : Byte), readsA i = false → exec i s = .next t →
    exec i { s with a := v } = .next (if writesA i then t else { t with a := v })) ∧
  (∀ (i : Instr) (s t : State) (v : Byte), readsB i = false → exec i s = .next t →
    exec i { s with b := v } = .next (if writesB i then t else { t with b := v }))

/-- 41_data_manipulation.md section 7, the flag table: a flag is unchanged by every instruction that the table does not list as
writing it. -/
def Obligations.UnwrittenFlagsAreKept : Prop :=
  ∀ (i : Instr) (s t : State) (f : Flag), exec i s = .next t → writesFlag f i = false → t.flag f = s.flag f

/-- 41_data_manipulation.md section 7, the flag table, and 10_state.md section 3: an instruction that the table does not list as
reading a flag does the same whatever the flag holds; HC and OVF are read by none. -/
def Obligations.UnreadFlagsDoNotMatter : Prop :=
  ∀ (i : Instr) (s t : State) (f : Flag) (v : Bool), readsFlag f i = false → exec i s = .next t →
    exec i (s.setFlag f v) = .next (if writesFlag f i then t else t.setFlag f v)

/-- 60_exceptions.md section 8: only the execution of a HALT sets `halted`. -/
def Obligations.OnlyHaltHalts : Prop :=
  ∀ (i : Instr) (s t : State), exec i s = .next t → (t.halted = true ↔ i = .halt ∨ s.halted = true)

/-- 70_reset_and_hazards.md section 2: `LITA 0` followed by `ADDLA 0` leaves A=0 and C=0, HC=0, OVF=0, from every state. -/
def Obligations.LitaThenAddlaClearsTheFlags : Prop :=
  ∀ s : State, ∃ t u, exec (.lita 0) s = .next t ∧ exec (.addla 0) t = .next u ∧
    u.a = 0 ∧ u.sr1 = ⟨false, false, false, s.sr1.compC⟩ ∧ u.b = s.b ∧ u.pc = s.pc + 2

/-! ## Memory -/

/-- 20_memory.md section 1: a read in `RAM_ADDRS` gives the location's byte, a read outside is refused (D14, log entry 18); a write
in `RAM_ADDRS` completes, the byte written is read back and every other location reads as before, nothing but data memory having
changed. A write outside is not defined by the spec; that it has no answer is the model's own choice, log entry 25. -/
def Obligations.MemoryReadAndWrite : Prop :=
  (∀ (s : State) (addr : DataAddr), s.isRam addr = true → s.memRead addr = .ok (s.dmemAt addr)) ∧
  (∀ (s : State) (addr : DataAddr), s.isRam addr = false → s.memRead addr = .error (.peripheralRead addr)) ∧
  (∀ (s : State) (addr : DataAddr) (v : Byte), s.isRam addr = true → ∃ t, s.memWrite addr v = some t ∧
    t.memRead addr = .ok v ∧ (∀ l, l ≠ addr → t.memRead l = s.memRead l ∧ t.dmemAt l = s.dmemAt l) ∧
    t = { s with dmem := t.dmem }) ∧
  (∀ (s : State) (addr : DataAddr) (v : Byte), s.isRam addr = false → s.memWrite addr v = none)

/-- 10_state.md section 6 with log entry 5: two data memories in canonical form that read alike at every address are the same
data. The canonical form and the byte an unlisted location reads as are the model's choice. -/
def Obligations.CanonicalMemoriesAreDeterminedByTheirReads : Prop :=
  ∀ m n : Memory, m.wf → n.wf → (∀ addr : DataAddr, m.read addr = n.read addr) → m = n

/-- 30_encoding.md section 9 and 70_reset_and_hazards.md section 2: program memory made of a program of well-formed terms at
distinct addresses agrees with it, the premise `ProgramAt`. -/
def Obligations.LoadedProgramIsInProgramMemory : Prop :=
  ∀ (prog : List (ProgAddr × Instr)) (s : State), (prog.map Prod.fst).Nodup → (∀ e ∈ prog, e.2.wellFormed = true) →
    ProgramAt prog { s with pmem := Slots.ofTerms prog }

/-! ## Steps and runs -/

/-- 20_memory.md section 1 and 00_scope.md section 5: a running, unmarked core whose slot at `pc` holds a word of a term steps as
that term executes (the slot holds a SRE-20 word: log entry 1). -/
def Obligations.StepRunsTheDecodedInstruction : Prop :=
  ∀ (s : State) (w : SreWord) (i : Instr), s.mark = none → s.halted = false → s.pc ≤ 16383 → s.slot s.pc = some w →
    decode w = .ok i → step s = exec i s

/-- The model's own loading operation (log entry 2): the next step of a running core runs the instruction loaded at `pc`. -/
def Obligations.StepRunsTheLoadedWord : Prop :=
  ∀ (s : State) (nbits w : Nat) (i : Instr), s.mark = none → s.halted = false → s.pc ≤ 16383 →
    decodeTableWord nbits w = some i → step (s.withFetchWord nbits w) = exec i (s.withFetchWord nbits w)

/-- 20_memory.md section 1 and 60_exceptions.md section 4 (D11, D33): past 16383 a fetch is PcOverflow whatever program memory
holds; in range, an empty slot or an invalid word is NoInstruction. -/
def Obligations.FetchFaults : Prop :=
  (∀ s : State, s.mark = none → s.halted = false → 16383 < s.pc → step s = .fault (.modelFault .pcOverflow)) ∧
  (∀ s : State, s.mark = none → s.halted = false → s.pc ≤ 16383 → s.slot s.pc = none →
    step s = .fault (.modelFault .noInstruction)) ∧
  (∀ (s : State) (w : SreWord), s.mark = none → s.halted = false → s.pc ≤ 16383 → s.slot s.pc = some w →
    (∀ i, decode w ≠ .ok i) → step s = .fault (.modelFault .noInstruction))

/-- 60_exceptions.md section 3: what a running core's step can raise: a fault only by its fetch, and a refusal only by the fetched
term, as NotInSource or as PeripheralRead (D18). -/
def Obligations.OutcomesOfAStep : Prop :=
  (∀ (s : State) (r : Fault), s.mark = none → s.halted = false →
    (step s = .fault r ↔ ∃ m, s.fetch = .error m ∧ r = .modelFault m)) ∧
  (∀ (s : State) (r : Refusal), s.mark = none → s.halted = false →
    (step s = .refused r ↔ ∃ i, s.fetch = .ok i ∧
      (specified i = false ∧ r = .notInSource i.mnemonic ∨
        ∃ addr, dataRead i = some addr ∧ s.isRam addr = false ∧ r = .peripheralRead addr)))

/-- 60_exceptions.md section 4 and 00_scope.md section 5: a step of a running core that does not complete raises a model fault or
a refusal; the outcome mark then holds that very outcome, nothing else has changed, and a further step answers the same outcome
again. That the mark is set beside the step, and that a marked state answers its outcome again, is the model's form, log entry
10. -/
def Obligations.RaisingSetsOnlyTheMark : Prop :=
  (∀ s : State, s.ended = false → (∀ t, step s ≠ .next t) →
    (∃ r, step s = .fault (.modelFault r)) ∨ ∃ r, step s = .refused r) ∧
  (∀ (s : State) (r : ModelFault), s.ended = false → step s = .fault (.modelFault r) →
    s.advance = s.setMark (.modelFault r) ∧ step s.advance = .fault (.modelFault r)) ∧
  (∀ (s : State) (r : Refusal), s.ended = false → step s = .refused r →
    s.advance = s.setMark (.refused r) ∧ step s.advance = .refused r) ∧
  (∀ (s : State) (m : Mark), s.setMark m = { s with mark := some m })

/-- 60_exceptions.md sections 4 and 8: outcomes are final, and a halted or marked state has no step: a run stays in it for ever
(that such a step answers a stop by name is the model's form, log entries 9 and 10). -/
def Obligations.EndedStatesStayForEver : Prop :=
  (∀ s : State, s.ended = true → ∀ t, step s ≠ .next t) ∧
  (∀ (n : Nat) (s : State), s.ended = true → s.runFor n = s)

/-- 10_state.md sections 2 and 8 and 60_exceptions.md section 8: the invariant (`pc` at most 16385, both memories canonical, never
halted and marked at once) is kept by every step, its next state and its marked one. The canonical form of the memories (rising
addresses in range, no entry equal to the byte an unlisted location reads as) is no rule of the spec but the model's own choice,
log entry 5 for data memory and log entry 1 for program memory. -/
def Obligations.EveryStepKeepsTheInvariant : Prop :=
  ∀ s : State, s.Inv → (∀ t, step s = .next t → t.Inv) ∧ s.advance.Inv

/-- 70_reset_and_hazards.md section 2: a launch state with canonical memories meets the invariant, and so does the reset state;
it runs, without a mark. The reset values are the model's choice, log entries 3 to 7, and so is the canonical form, log entries 1
and 5. -/
def Obligations.LaunchMeetsTheInvariant : Prop :=
  (∀ l : Launch, l.dmem0.wf → Slots.wf l.pmem → (State.launch l).Inv ∧ (State.launch l).ended = false) ∧
  State.reset.Inv ∧ State.reset.ended = false

/-- 20_memory.md sections 1, 7 and 10 (D21, D22): over a whole run every data location and every program slot keeps its launch
content, and the open parameters their values. -/
def Obligations.MemoryIsConstantOverARun : Prop :=
  ∀ (n : Nat) (s : State),
    (∀ addr : DataAddr, (s.runFor n).dmemAt addr = s.dmemAt addr) ∧
    (∀ p : ProgAddr, (s.runFor n).slot p.toNat = s.slot p.toNat) ∧ (s.runFor n).params = s.params

/-- 60_exceptions.md section 8: a run that ends well has executed a HALT (D16). -/
def Obligations.SuccessfulEndComesFromHalt : Prop :=
  ∀ (n : Nat) (s : State), s.ended = false → (s.runFor n).endedWell = true →
    ∃ k, k < n ∧ (s.runFor k).ended = false ∧ (s.runFor k).fetch = .ok .halt

/-- 40_basic.md, corner cases of skipping (D12, log entry 15): a step looks at no slot but the one at `pc`, so what a skipped slot
holds does not matter. -/
def Obligations.OtherSlotsDoNotMatter : Prop :=
  ∀ (s t : State) (p : Nat) (o : Option SreWord), p ≠ s.pc → step s = .next t → step (s.setSlot p o) = .next (t.setSlot p o)

/-! ## Lines of characters -/

/-- 30_encoding.md section 8: a line of an upper-case mnemonic and decimal operands of either sign, a comma between two of them
with any number of spaces before and after it, is read as that mnemonic and those operands (D27, log entry 24). -/
def Obligations.WrittenLineIsReadBack : Prop :=
  ∀ (l : SourceLine) (before after : Nat), l.mnemonic ≠ "" → (∀ c ∈ l.mnemonic.toList, c.isUpper = true) →
    readLine (l.chars before after) = .ok l

/-- 30_encoding.md section 8: a line that the transcriber accepts holds upper-case letters, decimal digits, spaces, commas and
minus signs only, and begins with a letter, so no lower case and no other punctuation mark is accepted (D27, log entry 24). -/
def Obligations.AcceptedLinesHoldOnlyTheShownCharacters : Prop :=
  ∀ (cs : List Char) (i : Instr), transcribeLine cs = .ok i →
    (∀ c ∈ cs, c.isUpper = true ∨ c.isDigit = true ∨ c = ' ' ∨ c = ',' ∨ c = '-') ∧
    ∃ c rest, cs = c :: rest ∧ c.isUpper = true

/-- 30_encoding.md section 8: a program is transcribed line by line; the lines of well-formed terms give these terms, and the
first line refused is named by its number, with its own reason (D27). Numbering from `n` is the model's form, log entry 24. -/
def Obligations.ProgramIsTranscribedLineByLine : Prop :=
  ∀ (n before after : Nat) (is : List Instr), (∀ i ∈ is, i.wellFormed = true) →
    transcribe n (is.map fun i => (disassemble i).chars before after) = .ok is ∧
    ∀ (l : List Char) (e : LineError) (rest : List (List Char)), transcribeLine l = .error e →
      transcribe n ((is.map fun i => (disassemble i).chars before after) ++ l :: rest) = .error (n + is.length, e)
end

