-- ==== Sys2Proof/Laws/Encoding.lean ====
section
/-! SUPPORT. The two fields of a SRE-20 word (R89), and a field under a form's mask (R90). -/

namespace Sys2Proof

theorem SreWord.getLsbD_pack (n : BitVec 6) (o : BitVec 14) (i : Nat) :
    (SreWord.pack n o).getLsbD i = if i < 14 then o.getLsbD i else n.getLsbD (i - 14) := by
  have h : (n ++ o).getLsbD i = if i < 14 then o.getLsbD i else n.getLsbD (i - 14) := by
    rw [BitVec.getLsbD_append]
  exact h

theorem SreWord.opnum_pack (n : BitVec 6) (o : BitVec 14) : (SreWord.pack n o).opnum = n := by
  apply BitVec.eq_of_getLsbD_eq
  intro i hi
  simp only [SreWord.opnum, BitVec.getLsbD_extractLsb', SreWord.getLsbD_pack]
  simp [hi]

theorem SreWord.opd_pack (n : BitVec 6) (o : BitVec 14) : (SreWord.pack n o).opd = o := by
  apply BitVec.eq_of_getLsbD_eq
  intro i hi
  simp only [SreWord.opd, BitVec.getLsbD_extractLsb', SreWord.getLsbD_pack]
  simp [hi]

theorem SreWord.pack_fields (w : SreWord) : SreWord.pack w.opnum w.opd = w := by
  apply BitVec.eq_of_getLsbD_eq
  intro i hi
  simp only [SreWord.getLsbD_pack, SreWord.opnum, SreWord.opd, BitVec.getLsbD_extractLsb']
  by_cases h : i < 14
  · simp [h]
  · simp [h, show i - 14 < 6 by omega, show 14 + (i - 14) = i by omega]

/-- A mask that covers the ordinal and leaves out every bit an operand field sets keeps the ordinal alone. -/
theorem SreWord.pack_and_mask {n : BitVec 6} {o : BitVec 14} {mask : SreWord}
    (hn : ∀ i, i < 20 → 14 ≤ i → mask.getLsbD i = true)
    (ho : ∀ i, i < 14 → o.getLsbD i = true → mask.getLsbD i = false) :
    SreWord.pack n o &&& mask = SreWord.pack n 0 := by
  apply BitVec.eq_of_getLsbD_eq
  intro i hi
  simp only [BitVec.getLsbD_and, SreWord.getLsbD_pack]
  by_cases h : i < 14
  · have := ho i h
    cases hb : o.getLsbD i <;> simp_all
  · simp [h, hn i hi (by omega)]

/-! ## Each form's decoder on the field its encoder makes (R90) -/

theorem decodeNone_zero (n : Nat) (i : Instr) : decodeNone n i 0 = .ok i := rfl

theorem decodeLit_field (n : Nat) (f : Byte → Instr) (v : Byte) : decodeLit n f (v.setWidth 14) = .ok (f v) := by
  have h1 : (v.setWidth 14).extractLsb' 8 6 = 0 := by
    apply BitVec.eq_of_toNat_eq
    have := v.isLt
    simp [BitVec.extractLsb'_toNat]
    omega
  have h2 : (v.setWidth 14).extractLsb' 0 8 = v := by
    apply BitVec.eq_of_toNat_eq
    have := v.isLt
    simp [BitVec.extractLsb'_toNat]
    omega
  simp only [decodeLit, h1, h2, if_true]

theorem decodeBit_field (n : Nat) (f : BitIndex → Instr) (v : BitIndex) : decodeBit n f (v.setWidth 14) = .ok (f v) := by
  have h1 : (v.setWidth 14).extractLsb' 3 11 = 0 := by revert v; decide
  have h2 : (v.setWidth 14).extractLsb' 0 3 = v := by revert v; decide
  simp only [decodeBit, h1, h2, if_true]

theorem decodeMemBit_field (n : Nat) (f : DataAddr → BitIndex → Instr) (a : DataAddr) (b : BitIndex) :
    decodeMemBit n f ((0#2 ++ b) ++ a) = .ok (f a b) := by
  have e : ((0#2 ++ b : BitVec 5) ++ a : BitVec 14).toNat = b.toNat * 512 + a.toNat := by
    have h : ((0#2 ++ b) ++ a).toNat = b.toNat * 512 + a.toNat := by
      have := a.isLt
      rw [BitVec.toNat_append, BitVec.toNat_append]
      simp only [BitVec.toNat_ofNat, Nat.zero_mod, Nat.zero_shiftLeft, Nat.zero_or]
      rw [Nat.shiftLeft_eq, Nat.mul_comm, ← Nat.two_pow_add_eq_or_of_lt a.isLt]
    exact h
  have ha := a.isLt
  have hb := b.isLt
  have h1 : ((0#2 ++ b : BitVec 5) ++ a : BitVec 14).extractLsb' 12 2 = 0 := by
    apply BitVec.eq_of_toNat_eq
    rw [BitVec.extractLsb'_toNat, e, Nat.shiftRight_eq_div_pow]
    simp
    omega
  have h2 : ((0#2 ++ b : BitVec 5) ++ a : BitVec 14).extractLsb' 0 9 = a := by
    apply BitVec.eq_of_toNat_eq
    rw [BitVec.extractLsb'_toNat, e, Nat.shiftRight_eq_div_pow]
    omega
  have h3 : ((0#2 ++ b : BitVec 5) ++ a : BitVec 14).extractLsb' 9 3 = b := by
    apply BitVec.eq_of_toNat_eq
    rw [BitVec.extractLsb'_toNat, e, Nat.shiftRight_eq_div_pow]
    omega
  simp only [decodeMemBit, h1, h2, h3, if_true]

theorem decodeRaw_field (f : Nat → Instr) {k : Nat} (h : k ≤ rawLimit) : decodeRaw f (BitVec.ofNat 14 k) = .ok (f k) := by
  have : k < 16384 := Nat.lt_of_le_of_lt h (by decide)
  simp [decodeRaw, Nat.mod_eq_of_lt this]

end Sys2Proof
end

