-- ==== Sys2Proof/Laws/Memory.lean ====
section
/-! SUPPORT. Laws of the sparse memories: a read after a write, the canonical form kept by every memory operation, and
the two shared operations that read memory (R51, R52). -/

namespace Sys2Proof.Machine

variable {β : Type}

/-! ## Lookup -/

theorem Cells.lookup_insert_self (k : Nat) (v : β) (m : List (Nat × β)) :
    Cells.lookup k (Cells.insert k v m) = some v := by
  induction m with
  | nil => simp [Cells.insert, Cells.lookup]
  | cons e rest ih =>
    obtain ⟨j, w⟩ := e
    by_cases h1 : k < j
    · simp [Cells.insert, Cells.lookup, h1]
    · by_cases h2 : k = j
      · simp [Cells.insert, Cells.lookup, h2]
      · simp [Cells.insert, Cells.lookup, h1, h2, ih]

theorem Cells.lookup_insert_ne {k l : Nat} (h : l ≠ k) (v : β) (m : List (Nat × β)) :
    Cells.lookup l (Cells.insert k v m) = Cells.lookup l m := by
  induction m with
  | nil => simp [Cells.insert, Cells.lookup, h]
  | cons e rest ih =>
    obtain ⟨j, w⟩ := e
    by_cases h1 : k < j
    · simp [Cells.insert, Cells.lookup, h1, h]
    · by_cases h2 : k = j
      · subst h2
        simp [Cells.insert, Cells.lookup, h]
      · simp [Cells.insert, Cells.lookup, h1, h2, ih]

theorem Cells.lookup_erase_self (k : Nat) (m : List (Nat × β)) : Cells.lookup k (Cells.erase k m) = none := by
  induction m with
  | nil => rfl
  | cons e rest ih =>
    obtain ⟨j, w⟩ := e
    by_cases h : k = j <;> simp [Cells.erase, Cells.lookup, h] <;> simpa [h] using ih

theorem Cells.lookup_erase_ne {k l : Nat} (h : l ≠ k) (m : List (Nat × β)) :
    Cells.lookup l (Cells.erase k m) = Cells.lookup l m := by
  induction m with
  | nil => rfl
  | cons e rest ih =>
    obtain ⟨j, w⟩ := e
    by_cases hk : k = j
    · subst hk
      simp [Cells.erase, Cells.lookup, h, ih]
    · simp [Cells.erase, Cells.lookup, hk, ih]

/-! ## The canonical form -/

theorem Cells.mem_insert {k : Nat} {v : β} {m : List (Nat × β)} {e : Nat × β} (h : e ∈ Cells.insert k v m) :
    e = (k, v) ∨ e ∈ m := by
  induction m with
  | nil => simpa [Cells.insert] using h
  | cons x rest ih =>
    obtain ⟨j, w⟩ := x
    simp only [Cells.insert] at h
    split at h
    · simpa using h
    · split at h
      · rcases List.mem_cons.mp h with h | h
        · exact .inl h
        · exact .inr (List.mem_cons_of_mem _ h)
      · rcases List.mem_cons.mp h with h | h
        · exact .inr (by simp [h])
        · rcases ih h with h | h
          · exact .inl h
          · exact .inr (List.mem_cons_of_mem _ h)

theorem Cells.mem_erase {k : Nat} {m : List (Nat × β)} {e : Nat × β} (h : e ∈ Cells.erase k m) : e ∈ m := by
  induction m with
  | nil => exact h
  | cons x rest ih =>
    obtain ⟨j, w⟩ := x
    simp only [Cells.erase] at h
    split at h
    · exact List.mem_cons_of_mem _ (ih h)
    · rcases List.mem_cons.mp h with h | h
      · simp [h]
      · exact List.mem_cons_of_mem _ (ih h)

theorem Cells.insert_rising (k : Nat) (v : β) {m : List (Nat × β)} (h : Cells.Rising m) :
    Cells.Rising (Cells.insert k v m) := by
  induction m with
  | nil => simp [Cells.insert]
  | cons x rest ih =>
    obtain ⟨j, w⟩ := x
    have hr := List.pairwise_cons.mp h
    simp only [Cells.insert]
    split
    · rename_i hk
      refine List.pairwise_cons.mpr ⟨fun e he => ?_, h⟩
      rcases List.mem_cons.mp he with he | he
      · simpa [he] using hk
      · have := hr.1 e he
        simp only at this ⊢
        omega
    · split
      · rename_i hk
        subst hk
        exact List.pairwise_cons.mpr ⟨hr.1, hr.2⟩
      · refine List.pairwise_cons.mpr ⟨fun e he => ?_, ih hr.2⟩
        rcases Cells.mem_insert he with he | he
        · simp only [he]
          omega
        · exact hr.1 e he

theorem Cells.erase_rising (k : Nat) {m : List (Nat × β)} (h : Cells.Rising m) : Cells.Rising (Cells.erase k m) := by
  induction m with
  | nil => exact h
  | cons x rest ih =>
    obtain ⟨j, w⟩ := x
    have hr := List.pairwise_cons.mp h
    simp only [Cells.erase]
    split
    · exact ih hr.2
    · exact List.pairwise_cons.mpr ⟨fun e he => hr.1 e (Cells.mem_erase he), ih hr.2⟩

/-- Writing a byte keeps data memory in canonical form. -/
theorem Memory.write_wf {m : Memory} (h : m.wf) (addr : DataAddr) (v : Byte) : (m.write addr v).wf := by
  unfold Memory.write
  split
  · exact ⟨Cells.erase_rising _ h.1, fun e he => h.2 e (Cells.mem_erase he)⟩
  · rename_i hv
    refine ⟨Cells.insert_rising _ _ h.1, fun e he => ?_⟩
    rcases Cells.mem_insert he with he | he
    · subst he
      exact ⟨by simpa [Config.dataSize] using addr.isLt, hv⟩
    · exact h.2 e he

/-- `memWrite` keeps data memory in canonical form. -/
theorem State.memWrite_wf {s t : State} {addr : DataAddr} {v : Byte} (h : s.dmem.wf) (hw : s.memWrite addr v = some t) :
    t.dmem.wf := by
  unfold State.memWrite at hw
  split at hw
  · cases hw
    exact Memory.write_wf h addr v
  · cases hw

/-- Loading a slot inside the address range keeps program memory in canonical form. -/
theorem State.setSlot_wf {s : State} (h : Slots.wf s.pmem) {p : Nat} (hp : p ≤ Config.lastProgAddr)
    (o : Option SreWord) : Slots.wf (s.setSlot p o).pmem := by
  cases o with
  | none => exact ⟨Cells.erase_rising _ h.1, fun e he => h.2 e (Cells.mem_erase he)⟩
  | some w =>
    refine ⟨Cells.insert_rising _ _ h.1, fun e he => ?_⟩
    rcases Cells.mem_insert he with he | he
    · simpa [he] using hp
    · exact h.2 e he

/-- The head of a list of terms is at its address, whatever the rest holds there (log entry 29). -/
theorem Slots.lookup_ofTerms_head (p : ProgAddr) (i : Instr) (rest : List (ProgAddr × Instr)) :
    Cells.lookup p.toNat (Slots.ofTerms ((p, i) :: rest)) = some (encode i) :=
  Cells.lookup_insert_self _ _ _

/-- Every other address is as in the rest of the list. -/
theorem Slots.lookup_ofTerms_ne {p q : ProgAddr} (h : q ≠ p) (i : Instr) (rest : List (ProgAddr × Instr)) :
    Cells.lookup q.toNat (Slots.ofTerms ((p, i) :: rest)) = Cells.lookup q.toNat (Slots.ofTerms rest) :=
  Cells.lookup_insert_ne (fun e => h (BitVec.eq_of_toNat_eq e)) _ _

/-- Both memories of the reset state are in canonical form. -/
theorem State.reset_memories_wf : State.reset.dmem.wf ∧ Slots.wf State.reset.pmem :=
  ⟨⟨List.Pairwise.nil, by simp [State.reset, State.launch, Launch.atReset]⟩,
    ⟨List.Pairwise.nil, by simp [State.reset, State.launch, Launch.atReset]⟩⟩

/-! ## Reading after writing -/

theorem Memory.read_write_self (m : Memory) (addr : DataAddr) (v : Byte) : (m.write addr v).read addr = v := by
  unfold Memory.write Memory.read
  split
  · rename_i h
    simp [Cells.lookup_erase_self, h]
  · simp [Cells.lookup_insert_self]

theorem Memory.read_write_ne (m : Memory) {addr l : DataAddr} (h : l ≠ addr) (v : Byte) :
    (m.write addr v).read l = m.read l := by
  have hn : l.toNat ≠ addr.toNat := fun e => h (BitVec.eq_of_toNat_eq e)
  unfold Memory.write Memory.read
  split
  · rw [Cells.lookup_erase_ne hn]
  · rw [Cells.lookup_insert_ne hn]

theorem State.slot_setSlot_self (s : State) (p : Nat) (o : Option SreWord) : (s.setSlot p o).slot p = o := by
  cases o with
  | none => exact Cells.lookup_erase_self p s.pmem
  | some w => exact Cells.lookup_insert_self p w s.pmem

theorem State.slot_setSlot_ne (s : State) {p q : Nat} (h : q ≠ p) (o : Option SreWord) :
    (s.setSlot p o).slot q = s.slot q := by
  cases o with
  | none => exact Cells.lookup_erase_ne h s.pmem
  | some w => exact Cells.lookup_insert_ne h w s.pmem

/-! ## What the shared operations answer -/

theorem State.memRead_eq_ok {s : State} {addr : DataAddr} {v : Byte} :
    s.memRead addr = .ok v ↔ s.isRam addr = true ∧ s.dmemAt addr = v := by
  unfold State.memRead
  split <;> simp_all

theorem State.memRead_eq_error {s : State} {addr : DataAddr} {r : Refusal} :
    s.memRead addr = .error r ↔ s.isRam addr = false ∧ .peripheralRead addr = r := by
  unfold State.memRead
  split <;> simp_all

theorem State.pmemAt_eq_some {s : State} {p : Nat} {i : Instr} :
    s.pmemAt p = some i ↔ ∃ w, s.slot p = some w ∧ decode w = .ok i := by
  unfold State.pmemAt
  cases s.slot p with
  | none => simp
  | some w =>
    cases h : decode w <;> simp [h]

theorem State.fetch_eq_ok {s : State} {i : Instr} :
    s.fetch = .ok i ↔ s.pc ≤ Config.lastProgAddr ∧ s.pmemAt s.pc = some i := by
  unfold State.fetch
  split
  · simp_all
  · cases h : s.pmemAt s.pc <;> simp_all

end Sys2Proof.Machine
end

