-- ==== Sys2Proof/Laws/PerInstr.lean ====
section
/-! SUPPORT. Every term's encoding selects its own row of the opcode table, at the position of its ordinal (R82, R90):
one lemma per constructor. -/

namespace Sys2Proof.Laws

/-- The row at the term's ordinal has its mnemonic and its form, and the term's word selects it. -/
def SreRowOf.Statement (i : Instr) : Prop :=
  match sreTable[i.ordinal.toNat]? with
  | some r => r.mnemonic = i.mnemonic ∧ r.form = i.form ∧ encode i &&& r.mask = r.pattern
  | none => False

/-! ## One lemma per operand form -/

theorem SreRowOf.full (n : BitVec 6) : SreWord.pack n 0 &&& 0xFFFFF = SreWord.pack n 0 :=
  SreWord.pack_and_mask (by decide) (by simp)

theorem SreRowOf.low8 (n : BitVec 6) (v : Byte) : SreWord.pack n (v.setWidth 14) &&& 0xFFF00 = SreWord.pack n 0 :=
  SreWord.pack_and_mask (by decide) fun i hi h => by
    have : i < 8 := by
      by_contra hc
      simp [BitVec.getLsbD_setWidth, BitVec.getLsbD_of_ge v i (by omega)] at h
    interval_cases i <;> rfl

theorem SreRowOf.low3 (n : BitVec 6) (v : BitIndex) : SreWord.pack n (v.setWidth 14) &&& 0xFFFF8 = SreWord.pack n 0 :=
  SreWord.pack_and_mask (by decide) fun i hi h => by
    have : i < 3 := by
      by_contra hc
      simp [BitVec.getLsbD_setWidth, BitVec.getLsbD_of_ge v i (by omega)] at h
    interval_cases i <;> rfl

theorem SreRowOf.low12 (n : BitVec 6) (a : DataAddr) (b : BitIndex) :
    SreWord.pack n ((0#2 ++ b) ++ a) &&& 0xFF000 = SreWord.pack n 0 :=
  SreWord.pack_and_mask (by decide) fun i hi h => by
    have : i < 12 := by
      by_contra hc
      have h9 : ¬ i < 9 := by omega
      have h3 : ¬ i - 9 < 3 := by omega
      have hz : (((0#2 ++ b : BitVec 5) ++ a : BitVec 14)).getLsbD i = false := by
        rw [show ((0#2 ++ b : BitVec 5) ++ a : BitVec 14) = (0#2 ++ b) ++ a from rfl, BitVec.getLsbD_append, if_neg h9,
          show (0#2 ++ b : BitVec 5) = 0#2 ++ b from rfl, BitVec.getLsbD_append, if_neg h3]
        simp
      exact absurd (hz.symm.trans h) (by decide)
    interval_cases i <;> rfl

theorem SreRowOf.all14 (n : BitVec 6) (o : BitVec 14) : SreWord.pack n o &&& 0xFC000 = SreWord.pack n 0 :=
  SreWord.pack_and_mask (by decide) fun i hi _ => by interval_cases i <;> rfl

/-! ## One lemma per constructor -/

theorem SreRowOf.nop : SreRowOf.Statement .nop := ⟨rfl, rfl, SreRowOf.full 0⟩
theorem SreRowOf.halt : SreRowOf.Statement .halt := ⟨rfl, rfl, SreRowOf.full 1⟩
theorem SreRowOf.lita (lit : Byte) : SreRowOf.Statement (.lita lit) := ⟨rfl, rfl, SreRowOf.low8 2 lit⟩
theorem SreRowOf.litb (lit : Byte) : SreRowOf.Statement (.litb lit) := ⟨rfl, rfl, SreRowOf.low8 3 lit⟩
theorem SreRowOf.cpy : SreRowOf.Statement .cpy := ⟨rfl, rfl, SreRowOf.full 4⟩
theorem SreRowOf.swp : SreRowOf.Statement .swp := ⟨rfl, rfl, SreRowOf.full 5⟩
theorem SreRowOf.jmp (addr : ProgAddr) : SreRowOf.Statement (.jmp addr) := ⟨rfl, rfl, SreRowOf.all14 6 addr⟩
theorem SreRowOf.ifra (bit : BitIndex) : SreRowOf.Statement (.ifra bit) := ⟨rfl, rfl, SreRowOf.low3 7 bit⟩
theorem SreRowOf.ifsa (bit : BitIndex) : SreRowOf.Statement (.ifsa bit) := ⟨rfl, rfl, SreRowOf.low3 8 bit⟩
theorem SreRowOf.ifrm (addr : DataAddr) (bit : BitIndex) : SreRowOf.Statement (.ifrm addr bit) := ⟨rfl, rfl, SreRowOf.low12 9 addr bit⟩
theorem SreRowOf.ifsm (addr : DataAddr) (bit : BitIndex) : SreRowOf.Statement (.ifsm addr bit) := ⟨rfl, rfl, SreRowOf.low12 10 addr bit⟩
theorem SreRowOf.add : SreRowOf.Statement .add := ⟨rfl, rfl, SreRowOf.full 11⟩
theorem SreRowOf.addc : SreRowOf.Statement .addc := ⟨rfl, rfl, SreRowOf.full 12⟩
theorem SreRowOf.addla (lit : Byte) : SreRowOf.Statement (.addla lit) := ⟨rfl, rfl, SreRowOf.low8 13 lit⟩
theorem SreRowOf.addlac (lit : Byte) : SreRowOf.Statement (.addlac lit) := ⟨rfl, rfl, SreRowOf.low8 14 lit⟩
theorem SreRowOf.addlb (lit : Byte) : SreRowOf.Statement (.addlb lit) := ⟨rfl, rfl, SreRowOf.low8 15 lit⟩
theorem SreRowOf.addlbc (lit : Byte) : SreRowOf.Statement (.addlbc lit) := ⟨rfl, rfl, SreRowOf.low8 16 lit⟩
theorem SreRowOf.sub : SreRowOf.Statement .sub := ⟨rfl, rfl, SreRowOf.full 17⟩
theorem SreRowOf.subc : SreRowOf.Statement .subc := ⟨rfl, rfl, SreRowOf.full 18⟩
theorem SreRowOf.subl (lit : Byte) : SreRowOf.Statement (.subl lit) := ⟨rfl, rfl, SreRowOf.low8 19 lit⟩
theorem SreRowOf.sublc (lit : Byte) : SreRowOf.Statement (.sublc lit) := ⟨rfl, rfl, SreRowOf.low8 20 lit⟩
theorem SreRowOf.compb : SreRowOf.Statement .compb := ⟨rfl, rfl, SreRowOf.full 21⟩
theorem SreRowOf.compbc : SreRowOf.Statement .compbc := ⟨rfl, rfl, SreRowOf.full 22⟩
theorem SreRowOf.nota : SreRowOf.Statement .nota := ⟨rfl, rfl, SreRowOf.full 23⟩
theorem SreRowOf.and : SreRowOf.Statement .and := ⟨rfl, rfl, SreRowOf.full 24⟩
theorem SreRowOf.andl (lit : Byte) : SreRowOf.Statement (.andl lit) := ⟨rfl, rfl, SreRowOf.low8 25 lit⟩
theorem SreRowOf.or : SreRowOf.Statement .or := ⟨rfl, rfl, SreRowOf.full 26⟩
theorem SreRowOf.orl (lit : Byte) : SreRowOf.Statement (.orl lit) := ⟨rfl, rfl, SreRowOf.low8 27 lit⟩
theorem SreRowOf.xor : SreRowOf.Statement .xor := ⟨rfl, rfl, SreRowOf.full 28⟩
theorem SreRowOf.xorl (lit : Byte) : SreRowOf.Statement (.xorl lit) := ⟨rfl, rfl, SreRowOf.low8 29 lit⟩
theorem SreRowOf.shftr : SreRowOf.Statement .shftr := ⟨rfl, rfl, SreRowOf.full 30⟩
theorem SreRowOf.shftrl (lit : Byte) : SreRowOf.Statement (.shftrl lit) := ⟨rfl, rfl, SreRowOf.low8 31 lit⟩
theorem SreRowOf.shftl : SreRowOf.Statement .shftl := ⟨rfl, rfl, SreRowOf.full 32⟩
theorem SreRowOf.shftll (lit : Byte) : SreRowOf.Statement (.shftll lit) := ⟨rfl, rfl, SreRowOf.low8 33 lit⟩
theorem SreRowOf.sva (raw : Nat) : SreRowOf.Statement (.sva raw) := ⟨rfl, rfl, SreRowOf.all14 34 (BitVec.ofNat 14 raw)⟩
theorem SreRowOf.svb (raw : Nat) : SreRowOf.Statement (.svb raw) := ⟨rfl, rfl, SreRowOf.all14 35 (BitVec.ofNat 14 raw)⟩
theorem SreRowOf.lda (raw : Nat) : SreRowOf.Statement (.lda raw) := ⟨rfl, rfl, SreRowOf.all14 36 (BitVec.ofNat 14 raw)⟩
theorem SreRowOf.ldb (raw : Nat) : SreRowOf.Statement (.ldb raw) := ⟨rfl, rfl, SreRowOf.all14 37 (BitVec.ofNat 14 raw)⟩
theorem SreRowOf.svdp : SreRowOf.Statement .svdp := ⟨rfl, rfl, SreRowOf.full 38⟩
theorem SreRowOf.svdr : SreRowOf.Statement .svdr := ⟨rfl, rfl, SreRowOf.full 39⟩
theorem SreRowOf.lddr : SreRowOf.Statement .lddr := ⟨rfl, rfl, SreRowOf.full 40⟩
theorem SreRowOf.call (raw : Nat) : SreRowOf.Statement (.call raw) := ⟨rfl, rfl, SreRowOf.all14 41 (BitVec.ofNat 14 raw)⟩
theorem SreRowOf.rtrn : SreRowOf.Statement .rtrn := ⟨rfl, rfl, SreRowOf.full 42⟩
theorem SreRowOf.rtrni : SreRowOf.Statement .rtrni := ⟨rfl, rfl, SreRowOf.full 43⟩
theorem SreRowOf.popa : SreRowOf.Statement .popa := ⟨rfl, rfl, SreRowOf.full 44⟩
theorem SreRowOf.popb : SreRowOf.Statement .popb := ⟨rfl, rfl, SreRowOf.full 45⟩
theorem SreRowOf.popm (raw : Nat) : SreRowOf.Statement (.popm raw) := ⟨rfl, rfl, SreRowOf.all14 46 (BitVec.ofNat 14 raw)⟩
theorem SreRowOf.pusha : SreRowOf.Statement .pusha := ⟨rfl, rfl, SreRowOf.full 47⟩
theorem SreRowOf.pushb : SreRowOf.Statement .pushb := ⟨rfl, rfl, SreRowOf.full 48⟩
theorem SreRowOf.pushm (raw : Nat) : SreRowOf.Statement (.pushm raw) := ⟨rfl, rfl, SreRowOf.all14 49 (BitVec.ofNat 14 raw)⟩
theorem SreRowOf.stla (raw : Nat) : SreRowOf.Statement (.stla raw) := ⟨rfl, rfl, SreRowOf.all14 50 (BitVec.ofNat 14 raw)⟩
theorem SreRowOf.stlb (raw : Nat) : SreRowOf.Statement (.stlb raw) := ⟨rfl, rfl, SreRowOf.all14 51 (BitVec.ofNat 14 raw)⟩
theorem SreRowOf.stsa (raw : Nat) : SreRowOf.Statement (.stsa raw) := ⟨rfl, rfl, SreRowOf.all14 52 (BitVec.ofNat 14 raw)⟩
theorem SreRowOf.stsb (raw : Nat) : SreRowOf.Statement (.stsb raw) := ⟨rfl, rfl, SreRowOf.all14 53 (BitVec.ofNat 14 raw)⟩
theorem SreRowOf.grow (raw : Nat) : SreRowOf.Statement (.grow raw) := ⟨rfl, rfl, SreRowOf.all14 54 (BitVec.ofNat 14 raw)⟩
theorem SreRowOf.shrink (raw : Nat) : SreRowOf.Statement (.shrink raw) := ⟨rfl, rfl, SreRowOf.all14 55 (BitVec.ofNat 14 raw)⟩

end Sys2Proof.Laws
end

