-- ==== Sys2Proof/Laws/State.lean ====
section
/-! SUPPORT. What each named update does to each field of State, so that no proof unfolds a record update. -/

namespace Sys2Proof.Machine

variable (s : State)

/-! ## Writing a register -/

@[simp] theorem State.setX_a_a (v : Byte) : (s.setX .a v).a = v := rfl
@[simp] theorem State.setX_a_b (v : Byte) : (s.setX .a v).b = s.b := rfl
@[simp] theorem State.setX_b_b (v : Byte) : (s.setX .b v).b = v := rfl
@[simp] theorem State.setX_b_a (v : Byte) : (s.setX .b v).a = s.a := rfl
@[simp] theorem State.setX_pc (r : Reg) (v : Byte) : (s.setX r v).pc = s.pc := by cases r <;> rfl
@[simp] theorem State.setX_sr1 (r : Reg) (v : Byte) : (s.setX r v).sr1 = s.sr1 := by cases r <;> rfl
@[simp] theorem State.setX_halted (r : Reg) (v : Byte) : (s.setX r v).halted = s.halted := by cases r <;> rfl
@[simp] theorem State.setX_dmem (r : Reg) (v : Byte) : (s.setX r v).dmem = s.dmem := by cases r <;> rfl
@[simp] theorem State.setX_pmem (r : Reg) (v : Byte) : (s.setX r v).pmem = s.pmem := by cases r <;> rfl
@[simp] theorem State.setX_mark (r : Reg) (v : Byte) : (s.setX r v).mark = s.mark := by cases r <;> rfl
@[simp] theorem State.setX_params (r : Reg) (v : Byte) : (s.setX r v).params = s.params := by cases r <;> rfl
@[simp] theorem State.x_a : s.x .a = s.a := rfl
@[simp] theorem State.x_b : s.x .b = s.b := rfl
@[simp] theorem State.x_setX_self (r : Reg) (v : Byte) : (s.setX r v).x r = v := by cases r <;> rfl

/-! ## Writing a flag -/

@[simp] theorem State.flag_setFlag_self (f : Flag) (v : Bool) : (s.setFlag f v).flag f = v := by cases f <;> rfl
theorem State.flag_setFlag_ne {f g : Flag} (h : g ≠ f) (v : Bool) : (s.setFlag f v).flag g = s.flag g := by
  cases f <;> cases g <;> first | rfl | exact absurd rfl h
@[simp] theorem State.flag_c : s.flag .c = s.sr1.c := rfl
@[simp] theorem State.flag_hc : s.flag .hc = s.sr1.hc := rfl
@[simp] theorem State.flag_ovf : s.flag .ovf = s.sr1.ovf := rfl
@[simp] theorem State.flag_compC : s.flag .compC = s.sr1.compC := rfl
@[simp] theorem State.setFlag_c_sr1 (v : Bool) : (s.setFlag .c v).sr1 = { s.sr1 with c := v } := rfl
@[simp] theorem State.setFlag_hc_sr1 (v : Bool) : (s.setFlag .hc v).sr1 = { s.sr1 with hc := v } := rfl
@[simp] theorem State.setFlag_ovf_sr1 (v : Bool) : (s.setFlag .ovf v).sr1 = { s.sr1 with ovf := v } := rfl
@[simp] theorem State.setFlag_compC_sr1 (v : Bool) : (s.setFlag .compC v).sr1 = { s.sr1 with compC := v } := rfl
@[simp] theorem State.setFlag_a (f : Flag) (v : Bool) : (s.setFlag f v).a = s.a := by cases f <;> rfl
@[simp] theorem State.setFlag_b (f : Flag) (v : Bool) : (s.setFlag f v).b = s.b := by cases f <;> rfl
@[simp] theorem State.setFlag_pc (f : Flag) (v : Bool) : (s.setFlag f v).pc = s.pc := by cases f <;> rfl
@[simp] theorem State.setFlag_halted (f : Flag) (v : Bool) : (s.setFlag f v).halted = s.halted := by cases f <;> rfl
@[simp] theorem State.setFlag_dmem (f : Flag) (v : Bool) : (s.setFlag f v).dmem = s.dmem := by cases f <;> rfl
@[simp] theorem State.setFlag_pmem (f : Flag) (v : Bool) : (s.setFlag f v).pmem = s.pmem := by cases f <;> rfl
@[simp] theorem State.setFlag_mark (f : Flag) (v : Bool) : (s.setFlag f v).mark = s.mark := by cases f <;> rfl
@[simp] theorem State.setFlag_params (f : Flag) (v : Bool) : (s.setFlag f v).params = s.params := by cases f <;> rfl
@[simp] theorem State.writeAddFlags_sr1 (c hc ovf : Bool) :
    (s.writeAddFlags c hc ovf).sr1 = ⟨c, hc, ovf, s.sr1.compC⟩ := rfl
@[simp] theorem State.writeAddFlags_a (c hc ovf : Bool) : (s.writeAddFlags c hc ovf).a = s.a := rfl
@[simp] theorem State.writeAddFlags_b (c hc ovf : Bool) : (s.writeAddFlags c hc ovf).b = s.b := rfl
@[simp] theorem State.writeAddFlags_pc (c hc ovf : Bool) : (s.writeAddFlags c hc ovf).pc = s.pc := rfl
@[simp] theorem State.writeAddFlags_halted (c hc ovf : Bool) : (s.writeAddFlags c hc ovf).halted = s.halted := rfl
@[simp] theorem State.writeAddFlags_dmem (c hc ovf : Bool) : (s.writeAddFlags c hc ovf).dmem = s.dmem := rfl
@[simp] theorem State.writeAddFlags_pmem (c hc ovf : Bool) : (s.writeAddFlags c hc ovf).pmem = s.pmem := rfl
@[simp] theorem State.writeAddFlags_mark (c hc ovf : Bool) : (s.writeAddFlags c hc ovf).mark = s.mark := rfl
@[simp] theorem State.writeAddFlags_params (c hc ovf : Bool) : (s.writeAddFlags c hc ovf).params = s.params := rfl

/-! ## Halting -/

@[simp] theorem State.setHalted_halted : (s.setHalted).halted = true := rfl
@[simp] theorem State.setHalted_a : (s.setHalted).a = s.a := rfl
@[simp] theorem State.setHalted_b : (s.setHalted).b = s.b := rfl
@[simp] theorem State.setHalted_pc : (s.setHalted).pc = s.pc := rfl
@[simp] theorem State.setHalted_sr1 : (s.setHalted).sr1 = s.sr1 := rfl
@[simp] theorem State.setHalted_dmem : (s.setHalted).dmem = s.dmem := rfl
@[simp] theorem State.setHalted_pmem : (s.setHalted).pmem = s.pmem := rfl
@[simp] theorem State.setHalted_mark : (s.setHalted).mark = s.mark := rfl
@[simp] theorem State.setHalted_params : (s.setHalted).params = s.params := rfl

/-! ## Marking -/

@[simp] theorem State.setMark_mark (m : Mark) : (s.setMark m).mark = some m := rfl
@[simp] theorem State.setMark_a (m : Mark) : (s.setMark m).a = s.a := rfl
@[simp] theorem State.setMark_b (m : Mark) : (s.setMark m).b = s.b := rfl
@[simp] theorem State.setMark_pc (m : Mark) : (s.setMark m).pc = s.pc := rfl
@[simp] theorem State.setMark_sr1 (m : Mark) : (s.setMark m).sr1 = s.sr1 := rfl
@[simp] theorem State.setMark_halted (m : Mark) : (s.setMark m).halted = s.halted := rfl
@[simp] theorem State.setMark_dmem (m : Mark) : (s.setMark m).dmem = s.dmem := rfl
@[simp] theorem State.setMark_pmem (m : Mark) : (s.setMark m).pmem = s.pmem := rfl
@[simp] theorem State.setMark_params (m : Mark) : (s.setMark m).params = s.params := rfl

/-! ## Writing pc -/

@[simp] theorem State.setPc_pc (p : Nat) : (s.setPc p).pc = p := rfl
@[simp] theorem State.setPc_a (p : Nat) : (s.setPc p).a = s.a := rfl
@[simp] theorem State.setPc_b (p : Nat) : (s.setPc p).b = s.b := rfl
@[simp] theorem State.setPc_sr1 (p : Nat) : (s.setPc p).sr1 = s.sr1 := rfl
@[simp] theorem State.setPc_halted (p : Nat) : (s.setPc p).halted = s.halted := rfl
@[simp] theorem State.setPc_dmem (p : Nat) : (s.setPc p).dmem = s.dmem := rfl
@[simp] theorem State.setPc_pmem (p : Nat) : (s.setPc p).pmem = s.pmem := rfl
@[simp] theorem State.setPc_mark (p : Nat) : (s.setPc p).mark = s.mark := rfl
@[simp] theorem State.setPc_params (p : Nat) : (s.setPc p).params = s.params := rfl

/-! ## Advancing pc -/

@[simp] theorem State.advancePc_pc : (s.advancePc).pc = s.pc + 1 := rfl
@[simp] theorem State.advancePc_a : (s.advancePc).a = s.a := rfl
@[simp] theorem State.advancePc_b : (s.advancePc).b = s.b := rfl
@[simp] theorem State.advancePc_sr1 : (s.advancePc).sr1 = s.sr1 := rfl
@[simp] theorem State.advancePc_halted : (s.advancePc).halted = s.halted := rfl
@[simp] theorem State.advancePc_dmem : (s.advancePc).dmem = s.dmem := rfl
@[simp] theorem State.advancePc_pmem : (s.advancePc).pmem = s.pmem := rfl
@[simp] theorem State.advancePc_mark : (s.advancePc).mark = s.mark := rfl
@[simp] theorem State.advancePc_params : (s.advancePc).params = s.params := rfl

/-! ## Skipping -/

@[simp] theorem State.skipIf_pc (e : Bool) : (s.skipIf e).pc = if e then s.pc + 1 else s.pc + 2 := by cases e <;> rfl
@[simp] theorem State.skipIf_a (e : Bool) : (s.skipIf e).a = s.a := by cases e <;> rfl
@[simp] theorem State.skipIf_b (e : Bool) : (s.skipIf e).b = s.b := by cases e <;> rfl
@[simp] theorem State.skipIf_sr1 (e : Bool) : (s.skipIf e).sr1 = s.sr1 := by cases e <;> rfl
@[simp] theorem State.skipIf_halted (e : Bool) : (s.skipIf e).halted = s.halted := by cases e <;> rfl
@[simp] theorem State.skipIf_dmem (e : Bool) : (s.skipIf e).dmem = s.dmem := by cases e <;> rfl
@[simp] theorem State.skipIf_pmem (e : Bool) : (s.skipIf e).pmem = s.pmem := by cases e <;> rfl
@[simp] theorem State.skipIf_mark (e : Bool) : (s.skipIf e).mark = s.mark := by cases e <;> rfl
@[simp] theorem State.skipIf_params (e : Bool) : (s.skipIf e).params = s.params := by cases e <;> rfl

/-! ## Loading a slot -/

@[simp] theorem State.setSlot_pmem_some (p : Nat) (w : SreWord) : (s.setSlot p (some w)).pmem = Cells.insert p w s.pmem := rfl
@[simp] theorem State.setSlot_pmem_none (p : Nat) : (s.setSlot p none).pmem = Cells.erase p s.pmem := rfl
@[simp] theorem State.setSlot_a (p : Nat) (o : Option SreWord) : (s.setSlot p o).a = s.a := by cases o <;> rfl
@[simp] theorem State.setSlot_b (p : Nat) (o : Option SreWord) : (s.setSlot p o).b = s.b := by cases o <;> rfl
@[simp] theorem State.setSlot_pc (p : Nat) (o : Option SreWord) : (s.setSlot p o).pc = s.pc := by cases o <;> rfl
@[simp] theorem State.setSlot_sr1 (p : Nat) (o : Option SreWord) : (s.setSlot p o).sr1 = s.sr1 := by cases o <;> rfl
@[simp] theorem State.setSlot_halted (p : Nat) (o : Option SreWord) : (s.setSlot p o).halted = s.halted := by cases o <;> rfl
@[simp] theorem State.setSlot_dmem (p : Nat) (o : Option SreWord) : (s.setSlot p o).dmem = s.dmem := by cases o <;> rfl
@[simp] theorem State.setSlot_mark (p : Nat) (o : Option SreWord) : (s.setSlot p o).mark = s.mark := by cases o <;> rfl
@[simp] theorem State.setSlot_params (p : Nat) (o : Option SreWord) : (s.setSlot p o).params = s.params := by cases o <;> rfl

end Sys2Proof.Machine
end

