-- ==== Sys2Proof/Laws/Step.lean ====
section
/-! SUPPORT. What a step can do, said once, and one lemma per shared operation of the meanings. -/

namespace Sys2Proof.Machine

/-- A step answers a next state only by executing the fetched instruction of a running, unmarked core. -/
theorem step_eq_next {s t : State} :
    step s = .next t ↔
      s.mark = none ∧ s.halted = false ∧ ∃ i, s.fetch = .ok i ∧ exec i s = .next t := by
  unfold step
  cases hm : s.mark with
  | some m => cases m <;> simp
  | none =>
    cases hh : s.halted
    · cases hf : s.fetch <;> simp
    · simp

/-- Without a mark and not halted, a step is the fetch and then the instruction. -/
theorem step_running {s : State} (hm : s.mark = none) (hh : s.halted = false) :
    step s = match s.fetch with
      | .error r => .fault (.modelFault r)
      | .ok i => exec i s := by
  cases hf : s.fetch <;> simp [step, hm, hh, hf]

/-- A name-only instruction is refused by its mnemonic. -/
theorem nameOnly_eq (i : Instr) (s : State) : nameOnly i s = .refused (.notInSource i.mnemonic) := rfl

/-- A memory bit test in `RAM_ADDRS` decides on the byte it reads. -/
theorem skipOnMem_ram {s : State} {addr : DataAddr} (h : s.isRam addr = true) (bit : BitIndex) (e : Bool) :
    skipOnMem addr bit e s = .next (s.skipIf (bitOf (s.dmemAt addr) bit == e)) := by
  simp [skipOnMem, State.memRead, h]

/-- A memory bit test outside `RAM_ADDRS` is refused. -/
theorem skipOnMem_peripheral {s : State} {addr : DataAddr} (h : s.isRam addr = false) (bit : BitIndex) (e : Bool) :
    skipOnMem addr bit e s = .refused (.peripheralRead addr) := by
  simp [skipOnMem, State.memRead, h]

/-- An addition as one record update. -/
theorem State.addInto_eq (s : State) (d : Reg) (y : Byte) (cin : Bool) :
    s.addInto d y cin =
      { s.setX d (add8 (s.x d) y cin).r with
        sr1 := ⟨(add8 (s.x d) y cin).c, (add8 (s.x d) y cin).hc, (add8 (s.x d) y cin).ovf, s.sr1.compC⟩
        pc := s.pc + 1 } := by
  cases d <;> rfl

/-- A negation as one record update. -/
theorem State.negateB_eq (s : State) (plusOne cin : Bool) :
    s.negateB plusOne cin =
      { s with
        b := (negate8 s.b plusOne cin).r
        sr1 := { s.sr1 with compC := (negate8 s.b plusOne cin).compC }
        pc := s.pc + 1 } := rfl

end Sys2Proof.Machine
end

