-- ==== Sys2Proof/Laws/Written.lean ====
section
/-! SUPPORT. One lemma per function of the transcriber: what the reader makes of what the writer makes, and which characters
it can have read (R94). -/

namespace Sys2Proof.Machine

/-! ## What is written is read back -/

/-- On digits the reader computes the value of the numeral. -/
theorem digitsOf_eq : ∀ (cs : List Char) (acc : Nat), (∀ c ∈ cs, c.isDigit = true) →
    digitsOf acc cs = some (Nat.ofDigitChars 10 cs acc)
  | [], _, _ => rfl
  | c :: cs, acc, h => by
    rw [digitsOf, if_pos (h c (by simp)), digitsOf_eq cs _ fun d hd => h d (by simp [hd]), Nat.ofDigitChars_cons]

theorem digitsOf_toDigits (n : Nat) : digitsOf 0 (Nat.toDigits 10 n) = some n := by
  rw [digitsOf_eq _ _ fun c hc => Nat.isDigit_of_mem_toDigits (by decide) (by decide) hc,
    Nat.ofDigitChars_toDigits (by decide) (by decide)]

theorem not_mem_toDigits {c : Char} {n : Nat} (h : c.isDigit = false) : c ∉ Nat.toDigits 10 n := fun hc => by
  have := Nat.isDigit_of_mem_toDigits (by decide) (by decide) hc
  simp [h] at this

/-- A written integer is read back. -/
theorem intOf_writeInt (n : Int) : intOf (writeInt n) = some n := by
  cases n with
  | ofNat n =>
    have hne : Nat.toDigits 10 n ≠ [] := Nat.toDigits_ne_nil
    have hm : '-' ∉ Nat.toDigits 10 n := not_mem_toDigits (by decide)
    have hd := digitsOf_toDigits n
    simp only [writeInt]
    revert hne hm hd
    generalize Nat.toDigits 10 n = cs
    intro hne hm hd
    cases cs with
    | nil => exact absurd rfl hne
    | cons c cs =>
      have : c ≠ '-' := fun e => hm (by simp [e])
      unfold intOf
      split
      · simp_all
      · simp_all
      · simp_all
      · simp [hd]
  | negSucc n =>
    have hne : Nat.toDigits 10 (n + 1) ≠ [] := Nat.toDigits_ne_nil
    have hd := digitsOf_toDigits (n + 1)
    simp only [writeInt]
    revert hne hd
    generalize Nat.toDigits 10 (n + 1) = cs
    intro hne hd
    cases cs with
    | nil => exact absurd rfl hne
    | cons c cs => simp [intOf, hd, Int.negSucc_eq]

/-- Every character of a written integer is a digit or a minus sign. -/
theorem mem_writeInt {c : Char} {n : Int} (h : c ∈ writeInt n) : c.isDigit = true ∨ c = '-' := by
  cases n with
  | ofNat n => exact .inl (Nat.isDigit_of_mem_toDigits (by decide) (by decide) h)
  | negSucc n =>
    rcases List.mem_cons.1 h with rfl | h
    · exact .inr rfl
    · exact .inl (Nat.isDigit_of_mem_toDigits (by decide) (by decide) h)

theorem space_not_mem_writeInt (n : Int) : ' ' ∉ writeInt n := fun h => by
  rcases mem_writeInt h with h | h <;> exact absurd h (by decide)

theorem comma_not_mem_writeInt (n : Int) : ',' ∉ writeInt n := fun h => by
  rcases mem_writeInt h with h | h <;> exact absurd h (by decide)

theorem dropSpaces_of_not_mem {cs : List Char} (h : ' ' ∉ cs) : dropSpaces cs = cs := by
  cases cs with
  | nil => rfl
  | cons c cs =>
    have : c ≠ ' ' := fun e => h (by simp [e])
    simp [dropSpaces, List.dropWhile, this]

theorem dropSpaces_replicate (k : Nat) (cs : List Char) : dropSpaces (List.replicate k ' ' ++ cs) = dropSpaces cs := by
  induction k with
  | zero => rfl
  | succ k ih => rw [List.replicate_succ, List.cons_append, ← ih]; rfl

/-- Spaces on both sides of a field that holds none are dropped. -/
theorem dropSpaces_around {cs : List Char} (h : ' ' ∉ cs) (k j : Nat) :
    (dropSpaces (dropSpaces (List.replicate k ' ' ++ cs ++ List.replicate j ' ')).reverse).reverse = cs := by
  rw [List.append_assoc, dropSpaces_replicate]
  by_cases hc : cs = []
  · subst hc
    simp only [List.nil_append]
    have h0 : ∀ j, dropSpaces (List.replicate j ' ') = [] := fun j => by
      have := dropSpaces_replicate j []
      rw [List.append_nil] at this
      exact this
    rw [h0]; rfl
  · obtain ⟨c, cs, rfl⟩ := List.exists_cons_of_ne_nil hc
    have hc : c ≠ ' ' := fun e => h (by simp [e])
    have e : dropSpaces (c :: cs ++ List.replicate j ' ') = c :: cs ++ List.replicate j ' ' := by
      simp [dropSpaces, hc]
    rw [e, List.reverse_append, List.reverse_replicate, dropSpaces_replicate,
      dropSpaces_of_not_mem (by rwa [List.mem_reverse]), List.reverse_reverse]

theorem splitCommas_ne_nil (cs : List Char) : splitCommas cs ≠ [] := by
  cases cs with
  | nil => simp [splitCommas]
  | cons c cs =>
    rw [splitCommas]
    split
    · simp
    · split <;> simp

theorem splitCommas_of_not_mem {cs : List Char} (h : ',' ∉ cs) : splitCommas cs = [cs] := by
  induction cs with
  | nil => rfl
  | cons c cs ih =>
    have hc : c ≠ ',' := fun e => h (by simp [e])
    rw [splitCommas, if_neg hc, ih fun hm => h (by simp [hm])]

/-- The first comma ends the first field. -/
theorem splitCommas_comma {cs : List Char} (h : ',' ∉ cs) (ds : List Char) :
    splitCommas (cs ++ ',' :: ds) = cs :: splitCommas ds := by
  induction cs with
  | nil => rfl
  | cons c cs ih =>
    have hc : c ≠ ',' := fun e => h (by simp [e])
    rw [List.cons_append, splitCommas, if_neg hc, ih fun hm => h (by simp [hm])]

/-- Written operands, with any spaces before them, are read back. -/
theorem operandsOf_writeOperands (before after : Nat) : ∀ (ops : List Int) (k : Nat), ops ≠ [] →
    operandsOf (splitCommas (List.replicate k ' ' ++ writeOperands before after ops)) = some ops
  | [], _, h => absurd rfl h
  | [n], k, _ => by
    rw [writeOperands, splitCommas_of_not_mem (by simp [comma_not_mem_writeInt]), operandsOf, dropSpaces_replicate,
      dropSpaces_of_not_mem (space_not_mem_writeInt n), intOf_writeInt]
    rfl
  | n :: m :: ns, k, _ => by
    have hs : ',' ∉ List.replicate k ' ' ++ writeInt n ++ List.replicate before ' ' := by
      simp [comma_not_mem_writeInt]
    rw [writeOperands, ← List.append_assoc, ← List.append_assoc, splitCommas_comma hs]
    · obtain ⟨w, ws, e⟩ := List.exists_cons_of_ne_nil
        (splitCommas_ne_nil (List.replicate after ' ' ++ writeOperands before after (m :: ns)))
      have ih := operandsOf_writeOperands before after (m :: ns) after (by simp)
      rw [e] at ih ⊢
      rw [operandsOf, dropSpaces_around (space_not_mem_writeInt n), intOf_writeInt, ih]
      simp
    · simp

/-- The first space ends the mnemonic. -/
theorem takeWhile_space {p : Char → Bool} {l r : List Char} (h : ∀ c ∈ l, p c = true) (hr : p ' ' = false) :
    (l ++ ' ' :: r).takeWhile p = l ∧ (l ++ ' ' :: r).dropWhile p = ' ' :: r := by
  rw [List.takeWhile_append_of_pos h, List.dropWhile_append_of_pos h]
  simp [List.takeWhile, List.dropWhile, hr]

/-- A mnemonic is not empty, and of upper-case letters (R82). -/
theorem Instr.mnemonic_upper (i : Instr) : i.mnemonic ≠ "" ∧ ∀ c ∈ i.mnemonic.toList, c.isUpper = true := by
  have h : i.mnemonic.toList.all Char.isUpper = true := by cases i <;> simp only [Instr.mnemonic] <;> decide
  have h' : (i.mnemonic == "") = false := by cases i <;> simp only [Instr.mnemonic] <;> decide
  exact ⟨by simpa using h', by simpa using h⟩

/-! ## What was read -/

/-- What is read as an integer holds digits and a minus sign only. -/
theorem intOf_chars {cs : List Char} {n : Int} (h : intOf cs = some n) : ∀ c ∈ cs, c.isDigit = true ∨ c = '-' := by
  have hd : ∀ (cs : List Char) (a k : Nat), digitsOf a cs = some k → ∀ c ∈ cs, c.isDigit = true := by
    intro cs
    induction cs with
    | nil => simp
    | cons c cs ih =>
      intro a k h
      rw [digitsOf] at h
      split at h
      · intro d hd
        rcases List.mem_cons.1 hd with rfl | hd
        · assumption
        · exact ih _ _ h d hd
      · cases h
  unfold intOf at h
  split at h
  · simp
  · simp
  · rename_i cs _
    cases hx : digitsOf 0 cs with
    | none => simp [hx] at h
    | some k =>
      intro c hc
      rcases List.mem_cons.1 hc with rfl | hc
      · exact .inr rfl
      · exact .inl (hd _ _ _ hx c hc)
  · cases hx : digitsOf 0 cs with
    | none => simp [hx] at h
    | some k => exact fun c hc => .inl (hd _ _ _ hx c hc)

theorem dropSpaces_mem (cs : List Char) (c : Char) (h : c ∈ cs) : c ∈ dropSpaces cs ∨ c = ' ' := by
  induction cs with
  | nil => cases h
  | cons d cs ih =>
    by_cases hd : d = ' '
    · have : dropSpaces (d :: cs) = dropSpaces cs := by simp [dropSpaces, List.dropWhile, hd]
      rw [this]
      rcases List.mem_cons.1 h with rfl | h
      · exact .inr hd
      · exact ih h
    · have : dropSpaces (d :: cs) = d :: cs := by simp [dropSpaces, List.dropWhile, hd]
      rw [this]; exact .inl h

theorem splitCommas_mem (cs : List Char) (c : Char) (h : c ∈ cs) : c = ',' ∨ ∃ w ∈ splitCommas cs, c ∈ w := by
  induction cs with
  | nil => cases h
  | cons d cs ih =>
    rw [splitCommas]
    by_cases hd : d = ','
    · rw [if_pos hd]
      rcases List.mem_cons.1 h with rfl | h
      · exact .inl hd
      · rcases ih h with h | ⟨w, hw, hc⟩
        · exact .inl h
        · exact .inr ⟨w, by simp [hw], hc⟩
    · rw [if_neg hd]
      obtain ⟨w, ws, e⟩ := List.exists_cons_of_ne_nil (splitCommas_ne_nil cs)
      rw [e] at ih ⊢
      rcases List.mem_cons.1 h with rfl | h
      · exact .inr ⟨c :: w, List.mem_cons_self .., List.mem_cons_self ..⟩
      · rcases ih h with h | ⟨v, hv, hc⟩
        · exact .inl h
        · rcases List.mem_cons.1 hv with rfl | hv
          · exact .inr ⟨_, List.mem_cons_self .., by simp [hc]⟩
          · exact .inr ⟨v, by simp [hv], hc⟩

/-- What is read as operands holds digits, minus signs and spaces only. -/
theorem operandsOf_mem : ∀ (ws : List (List Char)) (ops : List Int), operandsOf ws = some ops →
    ∀ w ∈ ws, ∀ c ∈ w, c.isDigit = true ∨ c = '-' ∨ c = ' '
  | [], _, h => by cases h
  | [w], ops, h => by
    intro v hv c hc
    obtain rfl : v = w := by simpa using hv
    rw [operandsOf] at h
    cases hx : intOf (dropSpaces v) with
    | none => simp [hx] at h
    | some n =>
      rcases dropSpaces_mem _ _ hc with h | h
      · have := intOf_chars hx c h; tauto
      · tauto
  | w :: w' :: ws, ops, h => by
    rw [operandsOf] at h
    split at h
    · rename_i n ns h1 h2
      intro v hv c hc
      rcases List.mem_cons.1 hv with rfl | hv
      · rcases dropSpaces_mem _ _ hc with h | h
        · rcases dropSpaces_mem (dropSpaces v).reverse c (by simpa using h) with h | h
          · have := intOf_chars h1 c (by simpa using h); tauto
          · tauto
        · tauto
      · exact operandsOf_mem _ _ h2 v hv c hc
    · cases h
    · simp

end Sys2Proof.Machine
end

