-- ==== Sys2Proof/Tests/Slice0.lean ====
section
/-! SUPPORT. Tests. Expected results come from spec/95_test_vectors.md (V<n>), from the corner cases of the instruction's
rule, or from the opcode table's bit patterns; and one witness per clause of every statement that has hypotheses. -/

namespace Sys2Proof.Tests

open Sys2Proof.Machine

/-! ## Helpers: small states, and what a step answers -/

/-- A running core with the given registers and `pc`, all data addresses RAM, reading (b) of COMPBC. -/
def st (a b : Byte) (pc : Nat) : State :=
  { a := a, b := b, pc := pc, sr1 := ⟨false, false, false, false⟩, halted := false, dmem := [], pmem := [], mark := none,
    params := ⟨[⟨0, 512⟩], false⟩ }

def withFlags (s : State) (c hc ovf compC : Bool) : State := { s with sr1 := ⟨c, hc, ovf, compC⟩ }

def withData (s : State) (m : Memory) : State := { s with dmem := m }

def nextOf : Result → Option State
  | .next t => some t
  | _ => none

def refusalOf : Result → Option Refusal
  | .refused r => some r
  | _ => none

def faultOf : Result → Option Fault
  | .fault r => some r
  | _ => none

/-- Registers, `pc` and `halted` of the next state. -/
def regsOf (o : Result) : Option (Byte × Byte × Nat × Bool) := (nextOf o).map fun t => (t.a, t.b, t.pc, t.halted)

/-- Registers and flags of the next state. -/
def dataOf (o : Result) : Option (Byte × Byte × Sr1) := (nextOf o).map fun t => (t.a, t.b, t.sr1)

/-- `pc` of the next state. -/
def pcOf (o : Result) : Option Nat := (nextOf o).map fun t => t.pc

def termOf (w : SreWord) : Option Instr :=
  match decode w with
  | .ok i => some i
  | .error _ => none

def decodesTo (l : List (SreWord × Instr)) : Bool := l.all fun p => termOf p.1 == some p.2

/-! ## Well-formedness: an ill-formed term or operand for each check -/

theorem test_wellFormed_refuses_raw :
    (Instr.sva 16384).wellFormed = false ∧ (Instr.stla 16384).wellFormed = false ∧
    (Instr.grow 16384).wellFormed = false ∧ (Instr.shrink 16383).wellFormed = true := by decide

theorem test_valid_ranges_refuse :
    validLiteral (-129) = false ∧ validLiteral 256 = false ∧ validTarget (-1) = false ∧ validTarget 16384 = false ∧
    validDataAddr (-1) = false ∧ validDataAddr 512 = false ∧ validBit (-1) = false ∧ validBit 8 = false ∧
    validRaw (-1) = false ∧ validRaw 16384 = false := by decide

/-! ## Decoding: one word per constructor, its bits written out from the patterns of the opcode table -/

theorem test_decode_basic_words : decodesTo [
    (0b000000_00000_000000000, .nop),
    (0b000001_00000_000000000, .halt),
    (0b000010_00000_010100101, .lita 0xA5),
    (0b000011_00000_010100101, .litb 0xA5),
    (0b000100_00000_000000000, .cpy),
    (0b000101_00000_000000000, .swp),
    (0b000110_10000_000000001, .jmp 0x2001),
    (0b000111_00000_000000110, .ifra 6),
    (0b001000_00000_000000110, .ifsa 6),
    (0b001001_00110_100000001, .ifrm 0x101 6),
    (0b001010_00110_100000001, .ifsm 0x101 6)] = true := by decide

theorem test_decode_data_words : decodesTo [
    (0b001011_00000_000000000, .add),
    (0b001100_00000_000000000, .addc),
    (0b001101_00000_010100101, .addla 0xA5),
    (0b001110_00000_010100101, .addlac 0xA5),
    (0b001111_00000_010100101, .addlb 0xA5),
    (0b010000_00000_010100101, .addlbc 0xA5),
    (0b010001_00000_000000000, .sub),
    (0b010010_00000_000000000, .subc),
    (0b010011_00000_010100101, .subl 0xA5),
    (0b010100_00000_010100101, .sublc 0xA5),
    (0b010101_00000_000000000, .compb),
    (0b010110_00000_000000000, .compbc),
    (0b010111_00000_000000000, .nota),
    (0b011000_00000_000000000, .and),
    (0b011001_00000_010100101, .andl 0xA5),
    (0b011010_00000_000000000, .or),
    (0b011011_00000_010100101, .orl 0xA5),
    (0b011100_00000_000000000, .xor),
    (0b011101_00000_010100101, .xorl 0xA5),
    (0b011110_00000_000000000, .shftr),
    (0b011111_00000_010100101, .shftrl 0xA5),
    (0b100000_00000_000000000, .shftl),
    (0b100001_00000_010100101, .shftll 0xA5)] = true := by decide

theorem test_decode_heap_words : decodesTo [
    (0b100010_10000_000000001, .sva 0x2001),
    (0b100011_10000_000000001, .svb 0x2001),
    (0b100100_10000_000000001, .lda 0x2001),
    (0b100101_10000_000000001, .ldb 0x2001),
    (0b100110_00000_000000000, .svdp),
    (0b100111_00000_000000000, .svdr),
    (0b101000_00000_000000000, .lddr)] = true := by decide

theorem test_decode_stack_words : decodesTo [
    (0b101001_10000_000000001, .call 0x2001),
    (0b101010_00000_000000000, .rtrn),
    (0b101011_00000_000000000, .rtrni),
    (0b101100_00000_000000000, .popa),
    (0b101101_00000_000000000, .popb),
    (0b101110_10000_000000001, .popm 0x2001),
    (0b101111_00000_000000000, .pusha),
    (0b110000_00000_000000000, .pushb),
    (0b110001_10000_000000001, .pushm 0x2001),
    (0b110010_10000_000000001, .stla 0x2001),
    (0b110011_10000_000000001, .stlb 0x2001),
    (0b110100_10000_000000001, .stsa 0x2001),
    (0b110101_10000_000000001, .stsb 0x2001),
    (0b110110_10000_000000001, .grow 0x2001),
    (0b110111_10000_000000001, .shrink 0x2001)] = true := by decide

/-- V6.2, V6.5, V6.10, V6.13, V6.18, V6.27, V6.28. -/
theorem test_decode_invalid_words :
    ([0x00001, 0x08100, 0x1C008, 0x25000, 0x2C001, 0xE0000, 0xFFFFF].map termOf) = [none, none, none, none, none, none, none] := by
  decide

/-- V6.6 and V6.23. -/
theorem test_decodeTableWord :
    decodeTableWord 24 0x0C080 = some (.litb 128) ∧ decodeTableWord 24 0x88123 = some (.sva 291) ∧
    decodeTableWord 24 0x100000 = none := by decide

/-! ## Basic Instructions -/

/-- V1.1. -/
theorem test_nop : regsOf (exec .nop (st 0x12 0x34 5)) = some (0x12, 0x34, 6, false) := by decide

/-- V1.2. -/
theorem test_halt : regsOf (exec .halt (st 0x07 0x00 9)) = some (0x07, 0x00, 10, true) := by decide

/-- V1.3. -/
theorem test_lita : regsOf (exec (.lita 255) (st 0x55 0x01 0)) = some (0xFF, 0x01, 1, false) := by decide

/-- V1.7. -/
theorem test_litb : regsOf (exec (.litb 0) (st 0x11 0x22 3)) = some (0x11, 0x00, 4, false) := by decide

/-- V1.8. -/
theorem test_cpy : regsOf (exec .cpy (st 0x3C 0x99 7)) = some (0x3C, 0x3C, 8, false) := by decide

/-- V1.9. -/
theorem test_swp : regsOf (exec .swp (st 0x01 0xFE 7)) = some (0xFE, 0x01, 8, false) := by decide

/-- V1.12. -/
theorem test_jmp : regsOf (exec (.jmp 16383) (st 0x00 0x00 0)) = some (0x00, 0x00, 16383, false) := by decide

/-- V1.14 and V1.15. -/
theorem test_ifra : pcOf (exec (.ifra 2) (st 0x04 0x00 10)) = some 12 ∧ pcOf (exec (.ifra 2) (st 0xFB 0x00 10)) = some 11 := by
  decide

/-- V1.16 and V1.17. -/
theorem test_ifsa : pcOf (exec (.ifsa 7) (st 0x80 0x00 0)) = some 1 ∧ pcOf (exec (.ifsa 7) (st 0x7F 0x00 0)) = some 2 := by
  decide

/-- V1.20, V1.21 and V1.26. -/
theorem test_ifrm :
    pcOf (exec (.ifrm 16 7) (withData (st 0 0 1) [(16, 0x80)])) = some 3 ∧
    pcOf (exec (.ifrm 16 0) (withData (st 0 0 1) [(16, 0x80)])) = some 2 ∧
    pcOf (exec (.ifrm 511 7) (withData (st 0 0 0) [(511, 0x01)])) = some 1 := by decide

/-- V1.22 and V1.23. -/
theorem test_ifsm :
    pcOf (exec (.ifsm 511 1) (withData (st 0 0 5) [(511, 0x01)])) = some 7 ∧
    pcOf (exec (.ifsm 511 0) (withData (st 0 0 5) [(511, 0x01)])) = some 6 := by decide

/-- V3.8: 300 is not in `RAM_ADDRS`. -/
theorem test_ifrm_peripheral :
    refusalOf (exec (.ifrm 300 0) { st 0 0 1 with params := ⟨[⟨16, 1⟩, ⟨511, 1⟩], false⟩ }) = some (.peripheralRead 300) := by
  decide

/-! ## Data Manipulation Instructions -/

/-- V2.1 to V2.23: rows (a, b, carry-in, sum, C, HC, OVF). -/
def add8Vectors : List (Byte × Byte × Bool × AddResult) := [
    (0x00, 0x00, false, ⟨0x00, false, false, false⟩), (0x01, 0x01, false, ⟨0x02, false, false, false⟩),
    (0x12, 0x34, false, ⟨0x46, false, false, false⟩), (0x0F, 0x01, false, ⟨0x10, false, true, false⟩),
    (0x0F, 0x00, true, ⟨0x10, false, true, false⟩), (0x08, 0x08, false, ⟨0x10, false, true, false⟩),
    (0x7F, 0x01, false, ⟨0x80, false, true, true⟩), (0x7F, 0x00, true, ⟨0x80, false, true, true⟩),
    (0x40, 0x40, false, ⟨0x80, false, false, true⟩), (0x80, 0x80, false, ⟨0x00, true, false, true⟩),
    (0x80, 0x80, true, ⟨0x01, true, false, true⟩), (0xFF, 0x01, false, ⟨0x00, true, true, false⟩),
    (0xFF, 0x00, true, ⟨0x00, true, true, false⟩), (0xFF, 0xFF, false, ⟨0xFE, true, true, false⟩),
    (0xFF, 0xFF, true, ⟨0xFF, true, true, false⟩), (0x80, 0x7F, false, ⟨0xFF, false, false, false⟩),
    (0x80, 0x7F, true, ⟨0x00, true, true, false⟩), (0x55, 0xAA, false, ⟨0xFF, false, false, false⟩),
    (0x55, 0xAA, true, ⟨0x00, true, true, false⟩), (0x3C, 0xC4, false, ⟨0x00, true, true, false⟩),
    (0xC0, 0xBF, true, ⟨0x80, true, true, false⟩), (0x05, 0xFF, false, ⟨0x04, true, true, false⟩),
    (0x00, 0xFF, false, ⟨0xFF, false, false, false⟩)]

theorem test_add8 : (add8Vectors.all fun v => add8 v.1 v.2.1 v.2.2.1 == v.2.2.2) = true := by decide

/-- V2.30: the old C is ignored, COMP_C kept. -/
theorem test_add :
    dataOf (exec .add (withFlags (st 0x12 0x34 0) true true true true)) = some (0x46, 0x34, ⟨false, false, false, true⟩) := by
  decide

/-- V2.31. -/
theorem test_addc :
    dataOf (exec .addc (withFlags (st 0x80 0x7F 0) true false false false)) = some (0x00, 0x7F, ⟨true, true, false, false⟩) := by
  decide

/-- V2.34. -/
theorem test_addla : dataOf (exec (.addla 0xFF) (st 0x05 0x77 0)) = some (0x04, 0x77, ⟨true, true, false, false⟩) := by decide

/-- V2.39. -/
theorem test_addlac :
    dataOf (exec (.addlac 0) (withFlags (st 0x7F 0x00 0) true false false false)) = some (0x80, 0x00, ⟨false, true, true, false⟩) := by
  decide

/-- V2.41. -/
theorem test_addlb : dataOf (exec (.addlb 0x80) (st 0x04 0x80 0)) = some (0x04, 0x00, ⟨true, false, true, false⟩) := by decide

/-- V2.42. -/
theorem test_addlbc :
    dataOf (exec (.addlbc 255) (withFlags (st 0x00 0xFF 0) true false false false)) = some (0x00, 0xFF, ⟨true, true, false, false⟩) := by
  decide

/-- V2.50 to V2.55. -/
theorem test_compb :
    ([0x00, 0x01, 0x7F, 0x80, 0xFF, 0x55].map fun b => dataOf (exec .compb (st 0x04 b 0))) =
    [some (0x04, 0x00, ⟨false, false, false, true⟩), some (0x04, 0xFF, ⟨false, false, false, false⟩),
      some (0x04, 0x81, ⟨false, false, false, false⟩), some (0x04, 0x80, ⟨false, false, false, false⟩),
      some (0x04, 0x01, ⟨false, false, false, false⟩), some (0x04, 0xAB, ⟨false, false, false, false⟩)] := by decide

/-- COMPBC on B and COMP_C under a reading. -/
def compbcOn (plusOne : Bool) (b : Byte) (compC : Bool) : Option (Byte × Bool) :=
  (nextOf (exec .compbc { withFlags (st 0 b 0) false false false compC with params := ⟨[], plusOne⟩ })).map
    fun t => (t.b, t.sr1.compC)

/-- V2.60 to V2.71, reading (a). -/
theorem test_compbc_reading_a :
    ([(0x00, false), (0x00, true), (0x01, false), (0x01, true), (0x7F, false), (0x7F, true), (0x80, false), (0x80, true),
      (0xFF, false), (0xFF, true), (0x55, false), (0x55, true)].map fun p => compbcOn true p.1 p.2) =
    [some (0x00, true), some (0x01, true), some (0xFF, false), some (0x00, true), some (0x81, false), some (0x82, false),
      some (0x80, false), some (0x81, false), some (0x01, false), some (0x02, false), some (0xAB, false), some (0xAC, false)] := by
  decide

/-- V2.60 to V2.71, reading (b). -/
theorem test_compbc_reading_b :
    ([(0x00, false), (0x00, true), (0x01, false), (0x01, true), (0x7F, false), (0x7F, true), (0x80, false), (0x80, true),
      (0xFF, false), (0xFF, true), (0x55, false), (0x55, true)].map fun p => compbcOn false p.1 p.2) =
    [some (0xFF, false), some (0x00, true), some (0xFE, false), some (0xFF, false), some (0x80, false), some (0x81, false),
      some (0x7F, false), some (0x80, false), some (0x00, false), some (0x01, false), some (0xAA, false), some (0xAB, false)] := by
  decide

/-- V2.80: all four flags kept. -/
theorem test_nota :
    dataOf (exec .nota (withFlags (st 0x00 0x00 0) true false true true)) = some (0xFF, 0x00, ⟨true, false, true, true⟩) := by
  decide

/-- V2.84 with V2.80's flags: AND writes none. -/
theorem test_and :
    dataOf (exec .and (withFlags (st 0xF0 0x3C 0) true false true true)) = some (0x30, 0x3C, ⟨true, false, true, true⟩) := by
  decide

/-! ## The name-only instructions: V2.90 to V2.102, V3.1 to V3.7, V4.1 to V4.15 -/

def nameOnlyVectors : List (SreWord × String) := [
    (0x44000, "SUB"), (0x48000, "SUBC"), (0x4C005, "SUBL"), (0x50005, "SUBLC"), (0x6400F, "ANDL"), (0x68000, "OR"),
    (0x6C00F, "ORL"), (0x70000, "XOR"), (0x7400F, "XORL"), (0x78000, "SHFTR"), (0x7C001, "SHFTRL"), (0x80000, "SHFTL"),
    (0x84001, "SHFTLL"), (0x88123, "SVA"), (0x8C000, "SVB"), (0x90010, "LDA"), (0x941FF, "LDB"), (0x98000, "SVDP"),
    (0x9C000, "SVDR"), (0xA0000, "LDDR"), (0xA4064, "CALL"), (0xA8000, "RTRN"), (0xAC000, "RTRNI"), (0xB0000, "POPA"),
    (0xB4000, "POPB"), (0xB8010, "POPM"), (0xBC000, "PUSHA"), (0xC0000, "PUSHB"), (0xC4010, "PUSHM"), (0xC8001, "STLA"),
    (0xCC001, "STLB"), (0xD0001, "STSA"), (0xD4001, "STSB"), (0xD8002, "GROW"), (0xDC002, "SHRINK")]

/-- Each is refused by name when it is stepped, and the marked state differs by the mark only. -/
theorem test_name_only_refused :
    (nameOnlyVectors.all fun v =>
      let s := (st 0x01 0x02 3).setSlot 3 (some v.1)
      refusalOf (step s) == some (.notInSource v.2) && s.advance == { s with mark := some (.refused (.notInSource v.2)) }) =
    true := by decide

/-! ## Steps -/

/-- V5.1 and V5.2. -/
theorem test_step_pcOverflow :
    faultOf (step (st 0 0 16384)) = some (.modelFault .pcOverflow) ∧
    faultOf (step (st 0 0 16385)) = some (.modelFault .pcOverflow) := by decide

/-- V5.3 and V5.4. -/
theorem test_step_noInstruction :
    faultOf (step (st 0 0 5)) = some (.modelFault .noInstruction) ∧
    faultOf (step ((st 0 0 5).setSlot 5 (some 0xE0000))) = some (.modelFault .noInstruction) ∧
    (st 0 0 5).advance.pc = 5 := by decide

/-- V5.5 and V5.6. -/
theorem test_no_step_when_ended :
    faultOf (step { st 0 0 5 with halted := true }) = some .halted ∧
    ({ st 0 0 5 with halted := true }).advance = { st 0 0 5 with halted := true } ∧
    refusalOf (step { st 0 0 5 with mark := some (.refused (.notInSource "SUB")) }) = some (.notInSource "SUB") := by decide

/-- V1.32: SUB in a skipped slot raises nothing. -/
theorem test_skipped_name_only :
    pcOf (step { st 0x01 0 0 with pmem := [(0, 0x20001), (1, 0x44000), (2, 0x04000)] }) = some 2 := by decide

/-- V1.37 and V1.38: the last address. -/
theorem test_last_address :
    pcOf (step ((st 0x00 0 16383).setSlot 16383 (some 0x20000))) = some 16385 ∧
    (nextOf (step ((st 0 0 16383).setSlot 16383 (some 0x04000)))).map (fun t => (t.pc, t.halted, t.mark)) =
      some (16384, true, none) := by decide

/-- From reset with the word of LITA 255 loaded, the first step runs it. -/
theorem test_first_step_after_reset :
    (nextOf (step (State.reset.withFetchWord 24 0x080FF))).map (fun t => (t.a, t.pc)) = some (0xFF, 1) := by decide

/-! ## The transcriber -/

/-- V1.4, V1.5 and R94's operand order. -/
theorem test_transcribe :
    (transcribeLine "LITA -1".toList).toOption = some (.lita 0xFF) ∧
    (transcribeLine "LITA -128".toList).toOption = some (.lita 0x80) ∧
    (transcribeLine "IFRM 511, 7".toList).toOption = some (.ifrm 511 7) ∧
    (transcribeLine "NOP".toList).toOption = some .nop := by decide

/-- A line as R94 and the heading "IFRM A, B" write it. -/
theorem test_line_chars :
    (⟨"IFRM", [511, 7]⟩ : SourceLine).chars 0 1 = "IFRM 511, 7".toList ∧
    (⟨"LITA", [-128]⟩ : SourceLine).chars 0 1 = "LITA -128".toList ∧ (disassemble .nop).chars 0 1 = "NOP".toList := by decide

/-- Lines R94, R85, R87 and R177 refuse. -/
theorem test_transcribe_refuses :
    (["LITA 256", "LITA -129", "JMP 16384", "IFRA 8", "IFRM 512, 0", "nop", "NOP 1", "LDDP", "LITA $1", "LITA", "SVA 16384"].map
      fun l => (transcribeLine l.toList).toOption) =
    [none, none, none, none, none, none, none, none, none, none, none] := by decide

/-! ## Memory -/

/-- Log entry 29: the head of a list wins. -/
theorem test_ofTerms_head_wins : Cells.lookup 3 (Slots.ofTerms [(3, .halt), (3, .nop)]) = some (encode .halt) := by decide

theorem test_memWrite_canonical :
    ((st 0 0 0).memWrite 16 0x80).map (fun t => (t.dmem, t.dmemAt 16, t.dmemAt 17)) = some ([(16, 0x80)], 0x80, 0x00) ∧
    (withData (st 0 0 0) [(16, 0x80)]).memWrite 16 0x00 = some (st 0 0 0) := by decide

/-! ## Witnesses: the hypotheses of each statement can be met, clause by clause -/

/-- DecodeOfEncodeIsTheTerm, TranscribedTermIsTheTerm. -/
theorem witness_wellFormed : (Instr.sva 16383).wellFormed = true ∧ (Instr.ifrm 511 7).wellFormed = true := by decide

/-- EncodeOfDecodeIsTheWord, and the clauses of ValidWordsAreThoseThatSelectARow. -/
theorem witness_valid_word :
    termOf 0xDFFFF = some (.shrink 16383) ∧ ∃ r ∈ sreTable, r.selects 0xDFFFF = true := by
  refine ⟨by decide, ⟨"SHRINK", .fxs, 0xDC000, 0xFC000⟩, by decide, by decide⟩

/-- InvalidWordsAreRefusedByReason and the third clause of FetchFaults: both kinds of invalid word. -/
theorem witness_invalid_words : (∀ i, decode 0xE0000 ≠ .ok i) ∧ (∀ i, decode 0x08100 ≠ .ok i) := by
  constructor <;> intro i h <;> cases h

/-- LiteralIsTakenModulo256, NegativeLiteralAliasesItsComplement: the ends of the ranges. -/
theorem witness_literals :
    literalOf (-128) = some 0x80 ∧ literalOf (-1) = some 0xFF ∧ literalOf 0 = some 0 ∧ literalOf 255 = some 0xFF ∧
    literalOf (-129) = none ∧ literalOf 256 = none := by decide

/-- AddressAndBitOperandsAreUsedUnchanged: the ends of each clause's range. -/
theorem witness_operands :
    targetOf 0 = some 0 ∧ targetOf 16383 = some 16383 ∧ targetOf 16384 = none ∧ targetOf (-1) = none ∧
    dataAddrOf 511 = some 511 ∧ dataAddrOf 512 = none ∧ bitIndexOf 7 = some 7 ∧ bitIndexOf 8 = none := by decide

/-- CopyAndSwapRegisters: SWP then CPY, and SWP twice. -/
theorem witness_swap_sequences :
    (∃ t u, exec .swp (st 1 2 0) = .next t ∧ exec .cpy t = .next u) ∧
    (∃ t u, exec .swp (st 1 2 0) = .next t ∧ exec .swp t = .next u) := ⟨⟨_, _, rfl, rfl⟩, ⟨_, _, rfl, rfl⟩⟩

/-- JumpGoesToItsAddress: an empty target slot. -/
theorem witness_jump_to_empty_slot :
    (∃ t, exec (.jmp 16383) (st 0 0 0) = .next t) ∧ (st 0 0 0).pmemAt 16383 = none := ⟨⟨_, rfl⟩, rfl⟩

/-- SkipOnBitOfRegisterA: IFRA and IFSA on one state. -/
theorem witness_skip_pair :
    ∃ t u, exec (.ifra 7) (st 0x80 0 0) = .next t ∧ exec (.ifsa 7) (st 0x80 0 0) = .next u := ⟨_, _, rfl, rfl⟩

/-- SkipOnBitInMemory, MemoryReadAndWrite, SpecifiedInstructionsComplete: the edges of a RAM region. -/
theorem witness_ram_edges :
    let s := { st 0 0 0 with params := ⟨[⟨16, 2⟩], false⟩ }
    s.isRam 15 = false ∧ s.isRam 16 = true ∧ s.isRam 17 = true ∧ s.isRam 18 = false ∧ (st 0 0 0).isRam 511 = true ∧
    RamAt [16, 17] s := by decide

/-- TwoByteAdditionByLiterals: P1's data. -/
theorem witness_two_byte_addition :
    ∃ t u v : State, exec (.addla 1) (st 0xFF 0 0) = .next t ∧ u.sr1.c = t.sr1.c ∧ exec (.addlac 0) u = .next v :=
  ⟨_, withFlags (st 1 0 0) true false false false, _, rfl, rfl, rfl⟩

/-- CompbNegatesRegisterB: COMPB twice. -/
theorem witness_compb_twice : ∃ t u, exec .compb (st 0 0x80 0) = .next t ∧ exec .compb t = .next u := ⟨_, _, rfl, rfl⟩

/-- CompbcUnderBothReadings. -/
theorem witness_compbc_readings :
    (st 0 1 0).params.compbcPlusOne = false ∧ ({ st 0 1 0 with params := ⟨[], true⟩ } : State).params.compbcPlusOne = true :=
  ⟨rfl, rfl⟩

/-- TwoByteNegationNeedsReadingB: P4's data under both readings. -/
theorem witness_two_byte_negation :
    ∀ r : Bool, ∃ t u v : State, exec .compb (st 0 0 0) = .next t ∧ u.sr1.compC = t.sr1.compC ∧
      u.params.compbcPlusOne = r ∧ exec .compbc u = .next v :=
  fun r => ⟨_, { withFlags (st 0 1 0) false false false true with params := ⟨[], r⟩ }, _, rfl, rfl, rfl, rfl⟩

/-- NotaInvertsRegisterA and AndIsBitwise: the second clauses, with each premise of AND's. -/
theorem witness_logic :
    (∃ t u, exec .nota (st 0x5A 0 0) = .next t ∧ exec .nota t = .next u) ∧
    (∃ t, exec .and (st 0x5A 0x5A 0) = .next t) ∧ (∃ t, exec .and (st 0x5A 0 0) = .next t) ∧
    (∃ t, exec .and (st 0x5A 0xFF 0) = .next t) := ⟨⟨_, _, rfl, rfl⟩, ⟨_, rfl⟩, ⟨_, rfl⟩, ⟨_, rfl⟩⟩

/-- SpecifiedInstructionsComplete: an instruction that reads no data, and one that reads RAM. -/
theorem witness_specified :
    specified .nop = true ∧ dataRead .nop = none ∧ specified (.ifrm 511 7) = true ∧
    dataRead (.ifrm 511 7) = some 511 ∧ (st 0 0 0).isRam 511 = true := by decide

/-- NextPcFollowsTheTable, FrameOfEveryInstruction, UnwrittenRegistersAreKept, UnwrittenFlagsAreKept, OnlyHaltHalts: a next
state, of an instruction that writes neither register and no flag, and is not HALT. -/
theorem witness_frame :
    (∃ t, exec (.jmp 2) (st 1 2 4) = .next t) ∧ writesA (.jmp 2) = false ∧ writesB (.jmp 2) = false ∧
    writesFlag .c (.jmp 2) = false ∧ writesFlag .compC .add = false ∧ Instr.jmp 2 ≠ .halt :=
  ⟨⟨_, rfl⟩, rfl, rfl, rfl, rfl, by decide⟩

/-- UnreadRegistersDoNotMatter: LITA reads no register and writes A, LITB reads none and writes B. -/
theorem witness_unread_registers :
    readsA (.lita 1) = false ∧ writesA (.lita 1) = true ∧ readsB (.litb 1) = false ∧ writesB (.litb 1) = true ∧
    (∃ t, exec (.lita 1) (st 1 2 4) = .next t) ∧ ∃ t, exec (.litb 1) (st 1 2 4) = .next t :=
  ⟨rfl, rfl, rfl, rfl, ⟨_, rfl⟩, ⟨_, rfl⟩⟩

/-- UnreadFlagsDoNotMatter: ADD reads no flag and writes C, COMPB reads none and writes COMP_C, ADDC does not read HC. -/
theorem witness_unread_flags :
    readsFlag .c .add = false ∧ writesFlag .c .add = true ∧ readsFlag .compC .compb = false ∧ readsFlag .hc .addc = false ∧
    ∃ t, exec .add (st 1 2 4) = .next t := ⟨rfl, rfl, rfl, rfl, ⟨_, rfl⟩⟩

/-- MemoryReadAndWrite, the write clauses: an address in RAM, another one, and one outside. -/
theorem witness_memWrite :
    (st 0 0 0).isRam 511 = true ∧ (510 : DataAddr) ≠ 511 ∧
    ({ st 0 0 0 with params := ⟨[⟨16, 2⟩], false⟩ } : State).isRam 18 = false := by decide

/-- CanonicalMemoriesAreDeterminedByTheirReads: a canonical memory that is not empty. -/
theorem witness_canonical : Memory.wf [(0, 1), (511, 2)] := by decide

/-- LoadedProgramIsInProgramMemory: a program with two addresses. -/
theorem witness_program :
    (([(0, .lita 1), (16383, .halt)] : List (ProgAddr × Instr)).map Prod.fst).Nodup ∧
    (∀ e ∈ ([(0, .lita 1), (16383, .halt)] : List (ProgAddr × Instr)), e.2.wellFormed = true) := by decide

/-- StepRunsTheDecodedInstruction, StepRunsTheLoadedWord and the clauses of FetchFaults, OutcomesOfAStep: running cores at the
edges of the address range, with a term, an invalid word and nothing at `pc`. -/
theorem witness_running_cores :
    let s := (st 0 0 16383).setSlot 16383 (some 0x04000)
    s.mark = none ∧ s.halted = false ∧ s.pc ≤ 16383 ∧ s.slot s.pc = some 0x04000 ∧ termOf 0x04000 = some .halt ∧
    decodeTableWord 24 0x04000 = some .halt ∧ (st 0 0 16383).slot 16383 = none ∧ 16383 < (st 0 0 16384).pc ∧
    ((st 0 0 5).setSlot 5 (some 0xE0000)).slot 5 = some 0xE0000 := by decide

/-- RaisingSetsOnlyTheMark: a running core whose step does not complete, by a fault and by a refusal. -/
theorem witness_raising :
    ((st 0 0 5).ended = false ∧ (∀ t, step (st 0 0 5) ≠ .next t) ∧ step (st 0 0 5) = .fault (.modelFault .noInstruction)) ∧
    ((st 0 0 5).setSlot 5 (some 0x44000)).ended = false ∧
    step ((st 0 0 5).setSlot 5 (some 0x44000)) = .refused (.notInSource "SUB") :=
  ⟨⟨rfl, fun t h => (by cases h), rfl⟩, rfl, rfl⟩

/-- WrittenLineIsReadBack: a mnemonic of letters, with a negative operand. -/
theorem witness_written_line :
    (⟨"LITA", [-128]⟩ : SourceLine).mnemonic ≠ "" ∧
    ∀ c ∈ (⟨"LITA", [-128]⟩ : SourceLine).mnemonic.toList, c.isUpper = true :=
  (Instr.mnemonic_upper (.lita 0))

/-- AcceptedLinesHoldOnlyTheShownCharacters and ProgramIsTranscribedLineByLine: a line accepted, two terms and a line refused. -/
theorem witness_lines :
    (transcribeLine "IFRM 511, 7".toList).toOption = some (.ifrm 511 7) ∧
    (∀ i ∈ ([.lita 1, .halt] : List Instr), i.wellFormed = true) ∧
    transcribeLine "nop".toList = .error .badShape := ⟨by decide, by decide, rfl⟩

/-- EndedStatesStayForEver: a halted and a marked state. -/
theorem witness_ended :
    ({ st 0 0 5 with halted := true } : State).ended = true ∧
    ({ st 0 0 5 with mark := some (.modelFault .noInstruction) } : State).ended = true := by decide

/-- EveryStepKeepsTheInvariant and LaunchMeetsTheInvariant: states with content that meet the invariant. -/
theorem witness_invariant :
    State.Inv { st 0 0 0 with dmem := [(16, 0x80)], pmem := [(0, 0x080FF), (16383, 0x04000)] } ∧
    (∃ t, step { st 0 0 0 with dmem := [(16, 0x80)], pmem := [(0, 0x080FF), (16383, 0x04000)] } = .next t) :=
  ⟨⟨by decide, by decide, by decide, by decide⟩, ⟨_, rfl⟩⟩

/-- SuccessfulEndComesFromHalt: one step into a HALT. -/
theorem witness_successful_end :
    ((st 0 0 0).setSlot 0 (some 0x04000)).ended = false ∧
    (State.runFor 1 ((st 0 0 0).setSlot 0 (some 0x04000))).endedWell = true := by decide

/-- OtherSlotsDoNotMatter: the slot after an instruction that skips. -/
theorem witness_other_slot :
    (1 : Nat) ≠ ((st 0 0 0).setSlot 0 (some 0x20000)).pc ∧ ∃ t, step ((st 0 0 0).setSlot 0 (some 0x20000)) = .next t :=
  ⟨by decide, ⟨_, rfl⟩⟩

end Sys2Proof.Tests
end

section
/-! Basic Instructions (40_basic.md): the next state of LITA, LITB, CPY and SWP, their words, and the two statements about
them. -/

namespace Sys2Proof

/-- The two fields of a word do not overlap, so the operand field is added to the ordinal's word (R89). -/
theorem SreWord.pack_eq_add (n : BitVec 6) (o : BitVec 14) : SreWord.pack n o = SreWord.pack n 0 + o.setWidth 20 := by
  have disjoint : SreWord.pack n 0 &&& o.setWidth 20 = 0 := by
    apply BitVec.eq_of_getLsbD_eq
    intro i hi
    by_cases h : i < 14
    · simp [SreWord.getLsbD_pack, h]
    · simp [BitVec.getLsbD_of_ge o i (by omega)]
  rw [BitVec.add_eq_or_of_and_eq_zero _ _ disjoint]
  apply BitVec.eq_of_getLsbD_eq
  intro i hi
  simp only [BitVec.getLsbD_or, SreWord.getLsbD_pack, BitVec.getLsbD_setWidth]
  by_cases h : i < 14
  · simp [h, hi]
  · simp [h, BitVec.getLsbD_of_ge o i (by omega)]

/-- The word of a term with a literal: the ordinal's word plus the literal (R90). -/
theorem encode_of_operand_lit {i : Instr} {v : Byte} (n : BitVec 6) (hn : i.ordinal = n) (h : i.operand = .lit v) :
    encode i = SreWord.pack n 0 + v.setWidth 20 := by
  rw [encode, hn, h, Operand.field, SreWord.pack_eq_add, BitVec.setWidth_setWidth (by decide)]

namespace Machine

/-! ## The next state of each instruction -/

/-- LITA (R112). -/
theorem exec_lita (lit : Byte) (s : State) : exec (.lita lit) s = .next { s with a := lit, pc := s.pc + 1 } := rfl

/-- LITB (R113). -/
theorem exec_litb (lit : Byte) (s : State) : exec (.litb lit) s = .next { s with b := lit, pc := s.pc + 1 } := rfl

/-- CPY (R114). -/
theorem exec_cpy (s : State) : exec .cpy s = .next { s with b := s.a, pc := s.pc + 1 } := rfl

/-- SWP (R115): both registers are read before either is written. -/
theorem exec_swp (s : State) : exec .swp s = .next { s with a := s.b, b := s.a, pc := s.pc + 1 } := rfl

/-! ## Sequences of SWP and CPY -/

theorem swp_cpy_registers {s t u : State} (hswp : exec .swp s = .next t) (hcpy : exec .cpy t = .next u) :
    u.a = s.b ∧ u.b = s.b := by
  rw [exec_swp] at hswp
  rw [exec_cpy] at hcpy
  cases hswp
  cases hcpy
  exact ⟨rfl, rfl⟩

theorem swp_swp_registers {s t u : State} (hfst : exec .swp s = .next t) (hsnd : exec .swp t = .next u) :
    u.a = s.a ∧ u.b = s.b := by
  rw [exec_swp] at hfst hsnd
  cases hfst
  cases hsnd
  exact ⟨rfl, rfl⟩

/-! ## LITA and LITB as words and as written lines -/

theorem encode_lita (lit : Byte) : encode (.lita lit) = 0x08000 + lit.setWidth 20 := encode_of_operand_lit 2 rfl rfl

theorem encode_litb (lit : Byte) : encode (.litb lit) = 0x0C000 + lit.setWidth 20 := encode_of_operand_lit 3 rfl rfl

/-- A one-operand line of a literal form is its constructor on the byte the literal stands for (R85). -/
theorem asmLit_of_literalOf (f : Byte → Instr) {l : Int} {v : Byte} (h : literalOf l = some v) : asmLit f [l] = .ok (f v) := by
  rw [asmLit, h]
  rfl

theorem assemble_lita {l : Int} {v : Byte} (h : literalOf l = some v) : assemble ⟨"LITA", [l]⟩ = .ok (.lita v) :=
  asmLit_of_literalOf .lita h

theorem assemble_litb {l : Int} {v : Byte} (h : literalOf l = some v) : assemble ⟨"LITB", [l]⟩ = .ok (.litb v) :=
  asmLit_of_literalOf .litb h

/-! ## The statements -/

/-- Settles O12: the next states, the words from the two fields, and each written literal by its value modulo 256. -/
theorem loadLiteralIntoRegister : Obligations.LoadLiteralIntoRegister :=
  ⟨exec_lita, exec_litb, fun lit => ⟨encode_lita lit, encode_litb lit⟩, fun _ => ⟨rfl, rfl⟩,
    assemble_lita (by decide), assemble_lita (by decide), assemble_lita (by decide), assemble_lita (by decide),
    assemble_lita (by decide), assemble_litb (by decide)⟩

/-- Settles O13: the next states, and the two sequences that follow from them. -/
theorem copyAndSwapRegisters : Obligations.CopyAndSwapRegisters :=
  ⟨exec_cpy, exec_swp, fun _ _ _ => swp_cpy_registers, fun _ _ _ => swp_swp_registers, rfl, rfl, rfl, rfl⟩

end Machine
end Sys2Proof
end

section
/-! Data Manipulation Instructions (41_data_manipulation.md): the next states of the ADD family, NOTA and AND, the refusal of
the thirteen names without semantics, their words, and the statements about them. -/

namespace Sys2Proof.Machine

/-! ## The ADD family: one addition into a register -/

/-- ADD (R131). -/
theorem exec_add (s : State) : exec .add s = .next { s with
    a := (add8 s.a s.b false).r
    sr1 := ⟨(add8 s.a s.b false).c, (add8 s.a s.b false).hc, (add8 s.a s.b false).ovf, s.sr1.compC⟩
    pc := s.pc + 1 } :=
  congrArg Host.Outcome.next (s.addInto_eq .a s.b false)

/-- ADDC (R132). -/
theorem exec_addc (s : State) : exec .addc s = .next { s with
    a := (add8 s.a s.b s.sr1.c).r
    sr1 := ⟨(add8 s.a s.b s.sr1.c).c, (add8 s.a s.b s.sr1.c).hc, (add8 s.a s.b s.sr1.c).ovf, s.sr1.compC⟩
    pc := s.pc + 1 } :=
  congrArg Host.Outcome.next (s.addInto_eq .a s.b s.sr1.c)

/-- ADDLA (R133). -/
theorem exec_addla (lit : Byte) (s : State) : exec (.addla lit) s = .next { s with
    a := (add8 s.a lit false).r
    sr1 := ⟨(add8 s.a lit false).c, (add8 s.a lit false).hc, (add8 s.a lit false).ovf, s.sr1.compC⟩
    pc := s.pc + 1 } :=
  congrArg Host.Outcome.next (s.addInto_eq .a lit false)

/-- ADDLAC (R134). -/
theorem exec_addlac (lit : Byte) (s : State) : exec (.addlac lit) s = .next { s with
    a := (add8 s.a lit s.sr1.c).r
    sr1 := ⟨(add8 s.a lit s.sr1.c).c, (add8 s.a lit s.sr1.c).hc, (add8 s.a lit s.sr1.c).ovf, s.sr1.compC⟩
    pc := s.pc + 1 } :=
  congrArg Host.Outcome.next (s.addInto_eq .a lit s.sr1.c)

/-- ADDLB (R135). -/
theorem exec_addlb (lit : Byte) (s : State) : exec (.addlb lit) s = .next { s with
    b := (add8 s.b lit false).r
    sr1 := ⟨(add8 s.b lit false).c, (add8 s.b lit false).hc, (add8 s.b lit false).ovf, s.sr1.compC⟩
    pc := s.pc + 1 } :=
  congrArg Host.Outcome.next (s.addInto_eq .b lit false)

/-- ADDLBC (R136). -/
theorem exec_addlbc (lit : Byte) (s : State) : exec (.addlbc lit) s = .next { s with
    b := (add8 s.b lit s.sr1.c).r
    sr1 := ⟨(add8 s.b lit s.sr1.c).c, (add8 s.b lit s.sr1.c).hc, (add8 s.b lit s.sr1.c).ovf, s.sr1.compC⟩
    pc := s.pc + 1 } :=
  congrArg Host.Outcome.next (s.addInto_eq .b lit s.sr1.c)

theorem encode_addla (lit : Byte) : encode (.addla lit) = 0x34000 + lit.setWidth 20 := encode_of_operand_lit 13 rfl rfl

theorem encode_addlac (lit : Byte) : encode (.addlac lit) = 0x38000 + lit.setWidth 20 := encode_of_operand_lit 14 rfl rfl

theorem encode_addlb (lit : Byte) : encode (.addlb lit) = 0x3C000 + lit.setWidth 20 := encode_of_operand_lit 15 rfl rfl

theorem encode_addlbc (lit : Byte) : encode (.addlbc lit) = 0x40000 + lit.setWidth 20 := encode_of_operand_lit 16 rfl rfl

/-- Settles O17: both instructions are one addition of B into A, without and with the old C carried in. -/
theorem addRegisters : Obligations.AddRegisters :=
  ⟨exec_add, exec_addc, rfl, rfl, rfl, rfl⟩

/-- Settles O18: both instructions are one addition of the literal into A; the words come from the two fields. -/
theorem addLiteralToA : Obligations.AddLiteralToA :=
  ⟨exec_addla, exec_addlac, fun lit => ⟨encode_addla lit, encode_addlac lit, rfl, rfl⟩⟩

/-- Settles O19: both instructions are one addition of the literal into B; the words come from the two fields. -/
theorem addLiteralToB : Obligations.AddLiteralToB :=
  ⟨exec_addlb, exec_addlbc, fun lit => ⟨encode_addlb lit, encode_addlbc lit, rfl, rfl⟩⟩

/-! ## NOTA and AND -/

/-- NOTA (R143). -/
theorem exec_nota (s : State) : exec .nota s = .next { s with a := ~~~s.a, pc := s.pc + 1 } := rfl

/-- AND (R144). -/
theorem exec_and (s : State) : exec .and s = .next { s with a := s.a &&& s.b, pc := s.pc + 1 } := rfl

theorem nota_nota_a {s t u : State} (hfst : exec .nota s = .next t) (hsnd : exec .nota t = .next u) : u.a = s.a := by
  rw [exec_nota] at hfst hsnd
  cases hfst
  cases hsnd
  exact BitVec.not_not

/-- The corner cases R144 names: equal registers, B all zeros, B all ones. -/
theorem and_a_corners {s t : State} (h : exec .and s = .next t) :
    (s.a = s.b → t.a = s.a) ∧ (s.b = 0 → t.a = 0) ∧ (s.b = 0xFF → t.a = s.a) := by
  rw [exec_and] at h
  cases h
  exact ⟨fun heq => (congrArg (s.a &&& ·) heq.symm).trans BitVec.and_self,
    fun hzero => (congrArg (s.a &&& ·) hzero).trans BitVec.and_zero,
    fun hones => (congrArg (s.a &&& ·) hones).trans BitVec.and_allOnes⟩

/-- Settles O25: the next state holds the inverse of A, whose bits and value are the library's facts about `~~~`. -/
theorem notaInvertsRegisterA : Obligations.NotaInvertsRegisterA := by
  refine ⟨fun s => ⟨_, exec_nota s, rfl, fun k hk => ?_, BitVec.toNat_not⟩, fun _ _ _ => nota_nota_a, rfl, rfl⟩
  simp [hk]

/-- Settles O26: the next state holds the conjunction of A and B, bit by bit. -/
theorem andIsBitwise : Obligations.AndIsBitwise := by
  refine ⟨fun s => ⟨_, exec_and s, rfl, fun k => ?_⟩, fun _ _ => and_a_corners, rfl, rfl⟩
  simp

/-! ## The names without semantics (R205, D15) -/

/-- An instruction whose arm is `nameOnly` is refused by its mnemonic in every state, and recording that sets the mark only. -/
theorem refusedByName {i : Instr} {name : String} {word : SreWord} {cycles : CycleFigure}
    (harm : ∀ s, exec i s = nameOnly i s) (hname : i.mnemonic = name) (hword : encode i = word)
    (hcycles : clockCycles i = cycles) : RefusedByName i name word cycles := by
  have hrefused : ∀ s, exec i s = .refused (.notInSource name) := fun s => by rw [harm, nameOnly_eq, hname]
  exact ⟨hrefused, fun s => by rw [hrefused]; rfl, hword, hcycles⟩

/-- Settles O27: each of the four has `nameOnly` for its arm. -/
theorem subFamilyIsRefused : Obligations.SubFamilyIsRefused :=
  ⟨refusedByName (fun _ => rfl) rfl rfl rfl,
    refusedByName (fun _ => rfl) rfl rfl rfl,
    fun _ => ⟨refusedByName (fun _ => rfl) rfl (encode_of_operand_lit 19 rfl rfl) rfl,
      refusedByName (fun _ => rfl) rfl (encode_of_operand_lit 20 rfl rfl) rfl⟩⟩

/-- Settles O28: each of the five has `nameOnly` for its arm. -/
theorem logicNamesAreRefused : Obligations.LogicNamesAreRefused :=
  ⟨refusedByName (fun _ => rfl) rfl rfl rfl,
    refusedByName (fun _ => rfl) rfl rfl rfl,
    fun _ => ⟨refusedByName (fun _ => rfl) rfl (encode_of_operand_lit 25 rfl rfl) rfl,
      refusedByName (fun _ => rfl) rfl (encode_of_operand_lit 27 rfl rfl) rfl,
      refusedByName (fun _ => rfl) rfl (encode_of_operand_lit 29 rfl rfl) rfl⟩⟩

/-- Settles O29: each of the four has `nameOnly` for its arm. -/
theorem shiftNamesAreRefused : Obligations.ShiftNamesAreRefused :=
  ⟨refusedByName (fun _ => rfl) rfl rfl rfl,
    refusedByName (fun _ => rfl) rfl rfl rfl,
    fun _ => ⟨refusedByName (fun _ => rfl) rfl (encode_of_operand_lit 31 rfl rfl) rfl,
      refusedByName (fun _ => rfl) rfl (encode_of_operand_lit 33 rfl rfl) rfl⟩⟩

end Sys2Proof.Machine
end

section
/-! Heap RAM & Peripheral Access Instructions (42_heap_peripheral.md): the words of the terms with a raw operand, and the
refusal of the seven names. -/

namespace Sys2Proof

/-- The word of a term: the ordinal's word plus the operand field (R89). For a raw operand of any of its three forms the
field is `BitVec.ofNat 14 raw` (R90). -/
theorem encode_of_operand_field {i : Instr} {o : BitVec 14} (n : BitVec 6) (hn : i.ordinal = n) (h : i.operand.field = o) :
    encode i = SreWord.pack n 0 + o.setWidth 20 := by
  rw [encode, hn, h, SreWord.pack_eq_add]

namespace Machine

/-- Settles O30: each of the seven has `nameOnly` for its arm; the words of the four with a raw operand come from the two
fields. -/
theorem heapNamesAreRefused : Obligations.HeapNamesAreRefused :=
  ⟨refusedByName (fun _ => rfl) rfl rfl rfl,
    refusedByName (fun _ => rfl) rfl rfl rfl,
    refusedByName (fun _ => rfl) rfl rfl rfl,
    fun _ => ⟨refusedByName (fun _ => rfl) rfl (encode_of_operand_field 34 rfl rfl) rfl,
      refusedByName (fun _ => rfl) rfl (encode_of_operand_field 35 rfl rfl) rfl,
      refusedByName (fun _ => rfl) rfl (encode_of_operand_field 36 rfl rfl) rfl,
      refusedByName (fun _ => rfl) rfl (encode_of_operand_field 37 rfl rfl) rfl⟩⟩

end Machine
end Sys2Proof
end

section
/-! Stack RAM Access Instructions (43_stack.md): the refusal of CALL, the returns, the pops, the pushes, and of the stack
offset and frame instructions. -/

namespace Sys2Proof.Machine

/-- An instruction with a raw operand whose arm is `nameOnly` is refused by its mnemonic, and its word is its ordinal's word
plus the operand field (R90). -/
theorem refusedByName_of_raw {i : Instr} {name : String} {raw : Nat} {cycles : CycleFigure} (n : BitVec 6)
    (harm : ∀ s, exec i s = nameOnly i s) (hname : i.mnemonic = name) (hn : i.ordinal = n)
    (hfield : i.operand.field = BitVec.ofNat 14 raw) (hcycles : clockCycles i = cycles) :
    RefusedByName i name (SreWord.pack n 0 + (BitVec.ofNat 14 raw).setWidth 20) cycles :=
  refusedByName harm hname (encode_of_operand_field n hn hfield) hcycles

/-- Settles O31: each of the nine has `nameOnly` for its arm; CALL, POPM and PUSHM carry a raw operand. -/
theorem callPopPushNamesAreRefused : Obligations.CallPopPushNamesAreRefused :=
  ⟨refusedByName (fun _ => rfl) rfl rfl rfl,
    refusedByName (fun _ => rfl) rfl rfl rfl,
    refusedByName (fun _ => rfl) rfl rfl rfl,
    refusedByName (fun _ => rfl) rfl rfl rfl,
    refusedByName (fun _ => rfl) rfl rfl rfl,
    refusedByName (fun _ => rfl) rfl rfl rfl,
    fun _ => ⟨refusedByName_of_raw 41 (fun _ => rfl) rfl rfl rfl rfl,
      refusedByName_of_raw 46 (fun _ => rfl) rfl rfl rfl rfl,
      refusedByName_of_raw 49 (fun _ => rfl) rfl rfl rfl rfl⟩⟩

/-- Settles O32: each of the six has `nameOnly` for its arm and carries a raw operand. -/
theorem stackFrameNamesAreRefused : Obligations.StackFrameNamesAreRefused := fun _ =>
  ⟨refusedByName_of_raw 50 (fun _ => rfl) rfl rfl rfl rfl,
    refusedByName_of_raw 51 (fun _ => rfl) rfl rfl rfl rfl,
    refusedByName_of_raw 52 (fun _ => rfl) rfl rfl rfl rfl,
    refusedByName_of_raw 53 (fun _ => rfl) rfl rfl rfl rfl,
    refusedByName_of_raw 54 (fun _ => rfl) rfl rfl rfl rfl,
    refusedByName_of_raw 55 (fun _ => rfl) rfl rfl rfl rfl⟩

end Sys2Proof.Machine
end

section
/-! Basic Instructions (40_basic.md), continued: the next state of NOP, HALT, JMP and the skips, their words, and the statements
about them. -/

namespace Sys2Proof.Machine

/-! ## The next state of each instruction -/

/-- NOP (R110). -/
theorem exec_nop (s : State) : exec .nop s = .next { s with pc := s.pc + 1 } := rfl

/-- HALT (R111). -/
theorem exec_halt (s : State) : exec .halt s = .next { s with halted := true, pc := s.pc + 1 } := rfl

/-- JMP (R116). -/
theorem exec_jmp (addr : ProgAddr) (s : State) : exec (.jmp addr) s = .next { s with pc := addr.toNat } := rfl

/-- A skip writes `pc` only (R121). -/
theorem State.skipIf_bitOf (s : State) (v : Byte) (bit : BitIndex) (e : Bool) :
    s.skipIf (bitOf v bit == e) = { s with pc := if v.getLsbD bit.toNat = e then s.pc + 1 else s.pc + 2 } := by
  unfold State.skipIf bitOf State.setPc
  by_cases h : v.getLsbD bit.toNat = e <;> simp [h]

/-- IFRA (R117). -/
theorem exec_ifra (bit : BitIndex) (s : State) : exec (.ifra bit) s =
    .next { s with pc := if s.a.getLsbD bit.toNat = false then s.pc + 1 else s.pc + 2 } :=
  congrArg Host.Outcome.next (s.skipIf_bitOf s.a bit false)

/-- IFSA (R118). -/
theorem exec_ifsa (bit : BitIndex) (s : State) : exec (.ifsa bit) s =
    .next { s with pc := if s.a.getLsbD bit.toNat = true then s.pc + 1 else s.pc + 2 } :=
  congrArg Host.Outcome.next (s.skipIf_bitOf s.a bit true)

/-- IFRM in `RAM_ADDRS` (R119). -/
theorem exec_ifrm_ram {addr : DataAddr} {s : State} (h : s.isRam addr = true) (bit : BitIndex) : exec (.ifrm addr bit) s =
    .next { s with pc := if (s.dmemAt addr).getLsbD bit.toNat = false then s.pc + 1 else s.pc + 2 } :=
  (skipOnMem_ram h bit false).trans (congrArg Host.Outcome.next (s.skipIf_bitOf (s.dmemAt addr) bit false))

/-- IFSM in `RAM_ADDRS` (R120). -/
theorem exec_ifsm_ram {addr : DataAddr} {s : State} (h : s.isRam addr = true) (bit : BitIndex) : exec (.ifsm addr bit) s =
    .next { s with pc := if (s.dmemAt addr).getLsbD bit.toNat = true then s.pc + 1 else s.pc + 2 } :=
  (skipOnMem_ram h bit true).trans (congrArg Host.Outcome.next (s.skipIf_bitOf (s.dmemAt addr) bit true))

/-- For the same A and bit, exactly one of IFRA and IFSA skips. -/
theorem ifra_ifsa_skip_opposite {bit : BitIndex} {s t u : State} (hifra : exec (.ifra bit) s = .next t)
    (hifsa : exec (.ifsa bit) s = .next u) : t.pc = s.pc + 2 ∧ u.pc = s.pc + 1 ∨ t.pc = s.pc + 1 ∧ u.pc = s.pc + 2 := by
  rw [exec_ifra] at hifra
  rw [exec_ifsa] at hifsa
  cases hifra
  cases hifsa
  cases hbit : s.a.getLsbD bit.toNat
  · exact .inr ⟨by simp, by simp⟩
  · exact .inl ⟨by simp, by simp⟩

/-! ## Words -/

/-- The word of a term with a bit index: the ordinal's word plus the index (R90). -/
theorem encode_of_operand_bit {i : Instr} {bit : BitIndex} (n : BitVec 6) (hn : i.ordinal = n) (h : i.operand = .bit bit) :
    encode i = SreWord.pack n 0 + bit.setWidth 20 := by
  rw [encode_of_operand_field n hn (congrArg Operand.field h), Operand.field, BitVec.setWidth_setWidth (by decide)]

/-- The operand field of a data address and a bit index as a number: the index stands above nine bits (R90). -/
theorem toNat_memBit_field (addr : DataAddr) (bit : BitIndex) :
    (Operand.memBit addr bit).field.toNat = bit.toNat * 512 + addr.toNat := by
  have hhigh : (0#2 ++ bit).toNat = bit.toNat := (BitVec.toNat_append 0#2 bit).trans (by simp)
  rw [← hhigh]
  calc (Operand.memBit addr bit).field.toNat = (0#2 ++ bit).toNat <<< 9 ||| addr.toNat :=
        BitVec.toNat_append (0#2 ++ bit) addr
    _ = (0#2 ++ bit).toNat * 512 + addr.toNat := by rw [← Nat.shiftLeft_add_eq_or_of_lt addr.isLt, Nat.shiftLeft_eq]

/-- The word of a term with a data address and a bit index (R90). -/
theorem encode_of_operand_memBit {i : Instr} {addr : DataAddr} {bit : BitIndex} (n : BitVec 6) (hn : i.ordinal = n)
    (h : i.operand = .memBit addr bit) : encode i = SreWord.pack n 0 + bit.setWidth 20 <<< 9 + addr.setWidth 20 := by
  have hfield : ((Operand.memBit addr bit).field.setWidth 20 : SreWord) = bit.setWidth 20 <<< 9 + addr.setWidth 20 := by
    apply BitVec.eq_of_toNat_eq
    rw [BitVec.toNat_setWidth, toNat_memBit_field]
    simp [Nat.shiftLeft_eq]
  rw [encode_of_operand_field n hn (congrArg Operand.field h), BitVec.add_assoc, hfield]

/-! ## What the statements also need: a fetch from an empty slot, and the sum of zeros -/

/-- An address in range whose slot holds no term is NoInstruction (R204). -/
theorem State.fetch_eq_noInstruction {s : State} (hpc : s.pc ≤ Config.lastProgAddr) (h : s.pmemAt s.pc = none) :
    s.fetch = .error .noInstruction := by
  rw [State.fetch, if_neg (Nat.not_lt.mpr hpc), h]

theorem add8_zero_zero : add8 0 0 false = ⟨0, false, false, false⟩ := by decide

/-! ## The statements -/

/-- Settles O10: the next state, and the fetch check of `pc`. -/
theorem nopOnlyAdvancesPc : Obligations.NopOnlyAdvancesPc :=
  ⟨exec_nop, fun _ => rfl, rfl, rfl⟩

/-- Settles O11: the next state. -/
theorem haltSetsHaltedOnly : Obligations.HaltSetsHaltedOnly :=
  ⟨exec_halt, rfl, rfl⟩

/-- Settles O14: the next state; its `pc` is in range, so the fetch there looks at the slot. -/
theorem jumpGoesToItsAddress : Obligations.JumpGoesToItsAddress := by
  refine ⟨exec_jmp, fun addr s t hexec hslot => ?_, fun addr => ⟨encode_of_operand_field 6 rfl rfl, rfl⟩⟩
  rw [exec_jmp] at hexec
  cases hexec
  exact State.fetch_eq_noInstruction (Nat.le_of_lt_succ addr.isLt) hslot

/-- Settles O15: the next states, of which exactly one skips. -/
theorem skipOnBitOfRegisterA : Obligations.SkipOnBitOfRegisterA :=
  ⟨exec_ifra, exec_ifsa, fun _ _ _ _ => ifra_ifsa_skip_opposite,
    fun _ => ⟨encode_of_operand_bit 7 rfl rfl, encode_of_operand_bit 8 rfl rfl⟩, fun _ => ⟨rfl, rfl⟩⟩

/-- Settles O16: the next states in RAM, the refusals outside, and the words from their two operands. -/
theorem skipOnBitInMemory : Obligations.SkipOnBitInMemory :=
  ⟨fun _ bit _ h => exec_ifrm_ram h bit, fun _ bit _ h => exec_ifsm_ram h bit,
    fun _ bit _ h => ⟨skipOnMem_peripheral h bit false, skipOnMem_peripheral h bit true⟩,
    fun _ _ => ⟨encode_of_operand_memBit 9 rfl rfl, encode_of_operand_memBit 10 rfl rfl, rfl, rfl⟩⟩

/-- Settles O42: LITA 0 leaves A zero, and zero plus zero sets no addition flag. -/
theorem litaThenAddlaClearsTheFlags : Obligations.LitaThenAddlaClearsTheFlags := by
  intro s
  refine ⟨_, { s with a := 0, sr1 := ⟨false, false, false, s.sr1.compC⟩, pc := s.pc + 2 }, exec_lita 0 s, ?_,
    rfl, rfl, rfl, rfl⟩
  simp only [exec_addla, add8_zero_zero]

end Sys2Proof.Machine
end

section
/-! The reference encoding SRE-20 (30_encoding.md section 5): each form's decoder read backwards, the one case split over the
ordinals, the rows of the opcode table, and the statements about encoding. -/

namespace Sys2Proof

/-! ## Decoding after encoding -/

theorem decode_pack (n : BitVec 6) (o : BitVec 14) : decode (SreWord.pack n o) = decodeFields n.toNat o := by
  rw [decode, SreWord.opnum_pack, SreWord.opd_pack]

/-- A term's ordinal selects its own decoder, which reads the operand field back. -/
theorem decodeFields_of_wellFormed {i : Instr} (h : i.wellFormed = true) :
    decodeFields i.ordinal.toNat i.operand.field = .ok i := by
  cases i with
  | lita v | litb v | addla v | addlac v | addlb v | addlbc v | subl v | sublc v | andl v | orl v | xorl v | shftrl v
  | shftll v => exact decodeLit_field _ _ v
  | jmp addr => rfl
  | ifra bit | ifsa bit => exact decodeBit_field _ _ bit
  | ifrm addr bit | ifsm addr bit => exact decodeMemBit_field _ _ addr bit
  | sva raw | svb raw | lda raw | ldb raw | call raw | popm raw | pushm raw | stla raw | stlb raw | stsa raw | stsb raw
  | grow raw | shrink raw => exact decodeRaw_field _ (of_decide_eq_true h)
  | _ => rfl

theorem decode_encode {i : Instr} (h : i.wellFormed = true) : decode (encode i) = .ok i := by
  rw [encode, decode_pack, decodeFields_of_wellFormed h]

/-- Settles O1: the two fields are read back, each by its form. -/
theorem decodeOfEncodeIsTheTerm : Obligations.DecodeOfEncodeIsTheTerm := fun _ => decode_encode

/-! ## Each form's decoder read backwards (R90) -/

/-- What the decoder of the ordinal `n` can answer on an operand field: a well-formed term of that ordinal and field, or the
refusal of a bit that the ordinal's row of the opcode table requires to be zero. -/
def FieldVerdict (n : Nat) (opd : BitVec 14) (answer : Except DecodeRefusal Instr) : Prop :=
  (∃ i, answer = .ok i ∧ i.ordinal.toNat = n ∧ i.operand.field = opd ∧ i.wellFormed = true) ∨
  answer = .error (.nonZeroBit n) ∧ ∀ r, sreTable[n]? = some r → opd &&& r.mask.opd ≠ 0

/-- An operand field with a bit in a part that the ordinal's mask covers is refused, and the row is not selected. -/
theorem nonZeroBit_verdict {n start len : Nat} {opd : BitVec 14}
    (hmask : (sreTable[n]?.map fun r => r.mask.opd.extractLsb' start len) = some (BitVec.allOnes len))
    (hbits : opd.extractLsb' start len ≠ 0) : FieldVerdict n opd (.error (.nonZeroBit n)) := by
  refine .inr ⟨rfl, fun r hr hzero => hbits ?_⟩
  rw [hr] at hmask
  have hones : r.mask.opd.extractLsb' start len = BitVec.allOnes len := Option.some.inj hmask
  calc opd.extractLsb' start len = (opd &&& r.mask.opd).extractLsb' start len := by
        rw [BitVec.extractLsb'_and, hones, BitVec.and_allOnes]
    _ = 0 := by rw [hzero]; simp

/-- A field whose upper bits are zero is its lower bits. -/
theorem setWidth_low_bits {k len : Nat} {opd : BitVec 14} (hlen : 14 ≤ k + len) (h : opd.extractLsb' k len = 0) :
    (opd.extractLsb' 0 k).setWidth 14 = opd := by
  apply BitVec.eq_of_getLsbD_eq
  intro i hi
  by_cases hk : i < k
  · simp [hi, hk]
  · have hbit := congrArg (BitVec.getLsbD · (i - k)) h
    simp [show i - k < len by omega, show k + (i - k) = i by omega] at hbit
    simp [hk, hbit]

theorem decodeNone_verdict {n : Nat} {opd : BitVec 14} {i : Instr} (hi : i.ordinal.toNat = n ∧ i.operand = .none)
    (hmask : (sreTable[n]?.map fun r => r.mask.opd.extractLsb' 0 14) = some (BitVec.allOnes 14)) :
    FieldVerdict n opd (decodeNone n i opd) := by
  obtain ⟨hn, ho⟩ := hi
  unfold decodeNone
  split
  · next h => exact .inl ⟨i, rfl, hn, by rw [ho, h]; rfl, by rw [Instr.wellFormed, ho]; rfl⟩
  · next h => exact nonZeroBit_verdict hmask (by rwa [BitVec.extractLsb'_eq_self])

theorem decodeLit_verdict {n : Nat} {opd : BitVec 14} {f : Byte → Instr}
    (hf : ∀ v, (f v).ordinal.toNat = n ∧ (f v).operand = .lit v)
    (hmask : (sreTable[n]?.map fun r => r.mask.opd.extractLsb' 8 6) = some (BitVec.allOnes 6)) :
    FieldVerdict n opd (decodeLit n f opd) := by
  unfold decodeLit
  split
  · next h =>
    obtain ⟨hn, ho⟩ := hf (opd.extractLsb' 0 8)
    exact .inl ⟨_, rfl, hn, by rw [ho]; exact setWidth_low_bits (by decide) h, by rw [Instr.wellFormed, ho]; rfl⟩
  · next h => exact nonZeroBit_verdict hmask h

theorem decodeBit_verdict {n : Nat} {opd : BitVec 14} {f : BitIndex → Instr}
    (hf : ∀ v, (f v).ordinal.toNat = n ∧ (f v).operand = .bit v)
    (hmask : (sreTable[n]?.map fun r => r.mask.opd.extractLsb' 3 11) = some (BitVec.allOnes 11)) :
    FieldVerdict n opd (decodeBit n f opd) := by
  unfold decodeBit
  split
  · next h =>
    obtain ⟨hn, ho⟩ := hf (opd.extractLsb' 0 3)
    exact .inl ⟨_, rfl, hn, by rw [ho]; exact setWidth_low_bits (by decide) h, by rw [Instr.wellFormed, ho]; rfl⟩
  · next h => exact nonZeroBit_verdict hmask h

theorem decodeMemBit_verdict {n : Nat} {opd : BitVec 14} {f : DataAddr → BitIndex → Instr}
    (hf : ∀ addr bit, (f addr bit).ordinal.toNat = n ∧ (f addr bit).operand = .memBit addr bit)
    (hmask : (sreTable[n]?.map fun r => r.mask.opd.extractLsb' 12 2) = some (BitVec.allOnes 2)) :
    FieldVerdict n opd (decodeMemBit n f opd) := by
  unfold decodeMemBit
  split
  · next h =>
    obtain ⟨hn, ho⟩ := hf (opd.extractLsb' 0 9) (opd.extractLsb' 9 3)
    refine .inl ⟨_, rfl, hn, ?_, by rw [Instr.wellFormed, ho]; rfl⟩
    rw [ho]
    apply BitVec.eq_of_toNat_eq
    have hzero := congrArg BitVec.toNat h
    have hopd := opd.isLt
    rw [Machine.toNat_memBit_field]
    simp [BitVec.extractLsb'_toNat, Nat.shiftRight_eq_div_pow] at hzero ⊢
    omega
  · next h => exact nonZeroBit_verdict hmask h

theorem decodeRaw_verdict {n : Nat} {opd : BitVec 14} {f : Nat → Instr} (hn : ∀ raw, (f raw).ordinal.toNat = n)
    (hfield : ∀ raw, (f raw).operand.field = BitVec.ofNat 14 raw)
    (hwf : ∀ raw, (f raw).wellFormed = decide (raw ≤ rawLimit)) :
    FieldVerdict n opd (decodeRaw f opd) := by
  refine .inl ⟨_, rfl, hn _, ?_, ?_⟩
  · rw [hfield, BitVec.ofNat_toNat, BitVec.setWidth_eq]
  · rw [hwf]; exact decide_eq_true (Nat.le_of_lt_succ opd.isLt)

theorem decodeTarget_verdict (opd : BitVec 14) : FieldVerdict 6 opd (decodeTarget .jmp opd) :=
  .inl ⟨_, rfl, rfl, rfl, rfl⟩

/-- The one case split over the ordinals of R82, by form. -/
theorem decodeFields_verdict {n : Nat} (hn : n ≤ 55) (opd : BitVec 14) : FieldVerdict n opd (decodeFields n opd) := by
  unfold decodeFields
  split
  case h_1 | h_2 | h_5 | h_6 | h_12 | h_13 | h_18 | h_19 | h_22 | h_23 | h_24 | h_25 | h_27 | h_29 | h_31 | h_33 | h_39
    | h_40 | h_41 | h_43 | h_44 | h_45 | h_46 | h_48 | h_49 => exact decodeNone_verdict ⟨rfl, rfl⟩ rfl
  case h_3 | h_4 | h_14 | h_15 | h_16 | h_17 | h_20 | h_21 | h_26 | h_28 | h_30 | h_32 | h_34 =>
    exact decodeLit_verdict (fun _ => ⟨rfl, rfl⟩) rfl
  case h_7 => exact decodeTarget_verdict opd
  case h_8 | h_9 => exact decodeBit_verdict (fun _ => ⟨rfl, rfl⟩) rfl
  case h_10 | h_11 => exact decodeMemBit_verdict (fun _ _ => ⟨rfl, rfl⟩) rfl
  case h_57 => simp only [imp_false] at *; omega
  all_goals exact decodeRaw_verdict (fun _ => rfl) (fun _ => rfl) (fun _ => rfl)

theorem decodeFields_outOfRange {n : Nat} (hn : 55 < n) (opd : BitVec 14) :
    decodeFields n opd = .error (.opnumOutOfRange n) := by
  unfold decodeFields
  split
  case h_57 => rfl
  all_goals omega

/-- The two fields of a valid word are those of its term. -/
theorem fields_of_decode {w : SreWord} {i : Instr} (h : decode w = .ok i) :
    w.opnum.toNat ≤ 55 ∧ i.ordinal = w.opnum ∧ i.operand.field = w.opd ∧ i.wellFormed = true := by
  rw [decode] at h
  by_cases hn : w.opnum.toNat ≤ 55
  · obtain ⟨j, hj, hord, hfield, hwf⟩ | ⟨herror, _⟩ := decodeFields_verdict hn w.opd
    · obtain rfl : j = i := Except.ok.inj (hj.symm.trans h)
      exact ⟨hn, BitVec.eq_of_toNat_eq hord, hfield, hwf⟩
    · rw [herror] at h; cases h
  · rw [decodeFields_outOfRange (Nat.not_le.mp hn)] at h; cases h

theorem encode_of_decode {w : SreWord} {i : Instr} (h : decode w = .ok i) : encode i = w := by
  obtain ⟨_, hord, hfield, _⟩ := fields_of_decode h
  rw [encode, hord, hfield, SreWord.pack_fields]

/-- Settles O2: the decoder read backwards gives the two fields of the word, and a bounded operand. -/
theorem encodeOfDecodeIsTheWord : Obligations.EncodeOfDecodeIsTheWord := by
  intro w i h
  obtain ⟨_, _, _, hwf⟩ := fields_of_decode h
  exact ⟨encode_of_decode h, hwf⟩

/-- Settles O4: an ordinal above 55, or one whose verdict is the refusal of a bit. -/
theorem invalidWordsAreRefusedByReason : Obligations.InvalidWordsAreRefusedByReason := by
  intro w hinvalid
  by_cases hn : 55 < w.opnum.toNat
  · rw [if_pos hn, decode, decodeFields_outOfRange hn]
  · rw [if_neg hn]
    obtain ⟨i, hi, _⟩ | ⟨herror, _⟩ := decodeFields_verdict (Nat.not_lt.mp hn) w.opd
    · exact absurd hi (hinvalid i)
    · exact herror

/-- Settles O5: each word decoded. -/
theorem sampleWordsDecode : Obligations.SampleWordsDecode :=
  ⟨rfl, rfl, rfl, rfl, rfl, rfl, rfl, rfl, rfl, rfl, rfl, rfl⟩

/-! ## The rows of the opcode table (R82, R90) -/

/-- Every mask covers the ordinal, every pattern holds the ordinal of its row's position and no operand bit. -/
theorem sreTable_rows : ∀ r ∈ sreTable, r.mask.opnum = BitVec.allOnes 6 ∧ r.pattern.opd = 0 ∧
    r.pattern.opnum.toNat ≤ 55 ∧ sreTable[r.pattern.opnum.toNat]? = some r := by decide

/-- The row a word selects is the one at its ordinal, and the word has no bit in the operand part of the row's mask. -/
theorem row_of_selects {w : SreWord} {r : SreRow} (hr : r ∈ sreTable) (h : r.selects w = true) :
    w.opnum.toNat ≤ 55 ∧ sreTable[w.opnum.toNat]? = some r ∧ w.opd &&& r.mask.opd = 0 := by
  obtain ⟨hmask, hopd, hbound, hrow⟩ := sreTable_rows r hr
  have hw : w &&& r.mask = r.pattern := by simpa [SreRow.selects] using h
  have hopnum : w.opnum = r.pattern.opnum := by
    rw [← hw, SreWord.opnum, SreWord.opnum, BitVec.extractLsb'_and, ← SreWord.opnum, ← SreWord.opnum, hmask,
      BitVec.and_allOnes]
  refine ⟨by rwa [hopnum], by rwa [hopnum], ?_⟩
  rw [← hopd, ← hw, SreWord.opd, SreWord.opd, SreWord.opd, BitVec.extractLsb'_and]

theorem row_of_selects_unique {w : SreWord} {r r' : SreRow} (hr : r ∈ sreTable) (hr' : r' ∈ sreTable)
    (h : r.selects w = true) (h' : r'.selects w = true) : r = r' := by
  obtain ⟨_, hrow, _⟩ := row_of_selects hr h
  obtain ⟨_, hrow', _⟩ := row_of_selects hr' h'
  exact Option.some.inj (hrow.symm.trans hrow')

theorem decode_of_selects {w : SreWord} {r : SreRow} (hr : r ∈ sreTable) (h : r.selects w = true) :
    ∃ i, decode w = .ok i := by
  obtain ⟨hn, hrow, hzero⟩ := row_of_selects hr h
  obtain ⟨i, hi, _⟩ | ⟨_, hbits⟩ := decodeFields_verdict hn w.opd
  · exact ⟨i, hi⟩
  · exact absurd hzero (hbits r hrow)

/-- The opcode table has the row of every term. -/
theorem sreRowOf (i : Instr) : Laws.SreRowOf.Statement i :=
  match i with
  | .nop => Laws.SreRowOf.nop | .halt => Laws.SreRowOf.halt | .lita lit => Laws.SreRowOf.lita lit
  | .litb lit => Laws.SreRowOf.litb lit | .cpy => Laws.SreRowOf.cpy | .swp => Laws.SreRowOf.swp
  | .jmp addr => Laws.SreRowOf.jmp addr | .ifra bit => Laws.SreRowOf.ifra bit | .ifsa bit => Laws.SreRowOf.ifsa bit
  | .ifrm addr bit => Laws.SreRowOf.ifrm addr bit | .ifsm addr bit => Laws.SreRowOf.ifsm addr bit
  | .add => Laws.SreRowOf.add | .addc => Laws.SreRowOf.addc | .addla lit => Laws.SreRowOf.addla lit
  | .addlac lit => Laws.SreRowOf.addlac lit | .addlb lit => Laws.SreRowOf.addlb lit
  | .addlbc lit => Laws.SreRowOf.addlbc lit | .sub => Laws.SreRowOf.sub | .subc => Laws.SreRowOf.subc
  | .subl lit => Laws.SreRowOf.subl lit | .sublc lit => Laws.SreRowOf.sublc lit | .compb => Laws.SreRowOf.compb
  | .compbc => Laws.SreRowOf.compbc | .nota => Laws.SreRowOf.nota | .and => Laws.SreRowOf.and
  | .andl lit => Laws.SreRowOf.andl lit | .or => Laws.SreRowOf.or | .orl lit => Laws.SreRowOf.orl lit
  | .xor => Laws.SreRowOf.xor | .xorl lit => Laws.SreRowOf.xorl lit | .shftr => Laws.SreRowOf.shftr
  | .shftrl lit => Laws.SreRowOf.shftrl lit | .shftl => Laws.SreRowOf.shftl | .shftll lit => Laws.SreRowOf.shftll lit
  | .sva raw => Laws.SreRowOf.sva raw | .svb raw => Laws.SreRowOf.svb raw | .lda raw => Laws.SreRowOf.lda raw
  | .ldb raw => Laws.SreRowOf.ldb raw | .svdp => Laws.SreRowOf.svdp | .svdr => Laws.SreRowOf.svdr
  | .lddr => Laws.SreRowOf.lddr | .call raw => Laws.SreRowOf.call raw | .rtrn => Laws.SreRowOf.rtrn
  | .rtrni => Laws.SreRowOf.rtrni | .popa => Laws.SreRowOf.popa | .popb => Laws.SreRowOf.popb
  | .popm raw => Laws.SreRowOf.popm raw | .pusha => Laws.SreRowOf.pusha | .pushb => Laws.SreRowOf.pushb
  | .pushm raw => Laws.SreRowOf.pushm raw | .stla raw => Laws.SreRowOf.stla raw | .stlb raw => Laws.SreRowOf.stlb raw
  | .stsa raw => Laws.SreRowOf.stsa raw | .stsb raw => Laws.SreRowOf.stsb raw | .grow raw => Laws.SreRowOf.grow raw
  | .shrink raw => Laws.SreRowOf.shrink raw

theorem row_of_term (i : Instr) :
    ∃ r ∈ sreTable, r.selects (encode i) = true ∧ r.mnemonic = i.mnemonic ∧ r.form = i.form := by
  have h := sreRowOf i
  unfold Laws.SreRowOf.Statement at h
  split at h
  · next r hr =>
    obtain ⟨hmnemonic, hform, hselects⟩ := h
    exact ⟨r, List.mem_of_getElem? hr, by rw [SreRow.selects, hselects, beq_self_eq_true], hmnemonic, hform⟩
  · exact h.elim

theorem row_of_decode {w : SreWord} {i : Instr} (h : decode w = .ok i) :
    ∃ r ∈ sreTable, r.selects w = true ∧ r.mnemonic = i.mnemonic ∧ r.form = i.form := by
  rw [← encode_of_decode h]
  exact row_of_term i

/-- Settles O3: a term has its row, a selected row its term, and the ordinal fixes the row. -/
theorem validWordsAreThoseThatSelectARow : Obligations.ValidWordsAreThoseThatSelectARow := by
  refine ⟨fun w => ⟨fun ⟨i, hi⟩ => ?_, fun ⟨r, hr, hselects⟩ => decode_of_selects hr hselects⟩,
    fun w r hr r' hr' => row_of_selects_unique hr hr', fun w i => row_of_decode⟩
  obtain ⟨r, hr, hselects, _⟩ := row_of_decode hi
  exact ⟨r, hr, hselects⟩

end Sys2Proof
end

section
/-! Data Manipulation Instructions (41_data_manipulation.md), continued: the two summations as numbers, and the statements about
addition and negation, of one byte and of two. -/

namespace Sys2Proof.Machine

/-! ## The summations as numbers -/

/-- The top bit of a word is its upper half. -/
theorem getLsbD_last {k : Nat} (x : BitVec (k + 1)) : x.getLsbD k = decide (2 ^ k ≤ x.toNat) :=
  (BitVec.msb_eq_getLsbD_last x).symm.trans (BitVec.msb_eq_decide x)

theorem getLsbD_last_iff {k : Nat} (x : BitVec (k + 1)) : x.getLsbD k = true ↔ 2 ^ k ≤ x.toNat := by
  rw [getLsbD_last, decide_eq_true_iff]

theorem toNat_carryBit (cin : Bool) : (carryBit cin).toNat = cin.toNat := BitVec.toNat_ofBool cin

/-- The 9-bit sum of two bytes and a carry does not wrap. -/
theorem toNat_sum9 (a b : Byte) (cin : Bool) :
    (a.setWidth 9 + b.setWidth 9 + (carryBit cin).setWidth 9).toNat = a.toNat + b.toNat + cin.toNat := by
  have ha := a.isLt
  have hb := b.isLt
  have hc := cin.toNat_lt
  simp [BitVec.toNat_add, toNat_carryBit]
  omega

theorem add8_r_toNat (a b : Byte) (cin : Bool) : (add8 a b cin).r.toNat = (a.toNat + b.toNat + cin.toNat) % 256 := by
  rw [← toNat_sum9]
  simp [add8]

theorem add8_c_iff (a b : Byte) (cin : Bool) : (add8 a b cin).c = true ↔ 256 ≤ a.toNat + b.toNat + cin.toNat := by
  rw [← toNat_sum9]
  exact getLsbD_last_iff _

theorem add8_hc_iff (a b : Byte) (cin : Bool) :
    (add8 a b cin).hc = true ↔ 16 ≤ a.toNat % 16 + b.toNat % 16 + cin.toNat := by
  have hc := cin.toNat_lt
  have hsum : ((a.extractLsb' 0 4).setWidth 5 + (b.extractLsb' 0 4).setWidth 5 + (carryBit cin).setWidth 5).toNat =
      a.toNat % 16 + b.toNat % 16 + cin.toNat := by
    simp [BitVec.toNat_add, toNat_carryBit]
    omega
  rw [← hsum]
  exact getLsbD_last_iff _

theorem add8_ovf_iff (a b : Byte) (cin : Bool) :
    (add8 a b cin).ovf = true ↔ a.toInt + b.toInt + cin.toNat < -128 ∨ 127 < a.toInt + b.toInt + cin.toNat := by
  have ha := a.isLt
  have hb := b.isLt
  have hc := cin.toNat_lt
  have hr := add8_r_toNat a b cin
  have hovf : (add8 a b cin).ovf = (a.getLsbD 7 == b.getLsbD 7 && (add8 a b cin).r.getLsbD 7 != a.getLsbD 7) := rfl
  rw [hovf, getLsbD_last a, getLsbD_last b, getLsbD_last (add8 a b cin).r, BitVec.toInt_eq_toNat_cond,
    BitVec.toInt_eq_toNat_cond, hr]
  simp only [Bool.and_eq_true, beq_iff_eq, bne_iff_ne, ne_eq, decide_eq_decide]
  split <;> split <;> omega

/-- Settles O20: the four results as numbers. -/
theorem add8MeetsTheArithmeticLaws : Obligations.Add8MeetsTheArithmeticLaws :=
  fun a b cin => ⟨add8_r_toNat a b cin, add8_c_iff a b cin, add8_hc_iff a b cin, add8_ovf_iff a b cin⟩

theorem toNat_sum9_not (b : Byte) (plusOne cin : Bool) :
    ((~~~b).setWidth 9 + (carryBit plusOne).setWidth 9 + (carryBit cin).setWidth 9).toNat =
      255 - b.toNat + plusOne.toNat + cin.toNat := by
  have hb := b.isLt
  have hp := plusOne.toNat_lt
  have hc := cin.toNat_lt
  simp [BitVec.toNat_add, BitVec.toNat_not, toNat_carryBit]
  omega

theorem negate8_r_toNat (b : Byte) (plusOne cin : Bool) :
    (negate8 b plusOne cin).r.toNat = (255 - b.toNat + plusOne.toNat + cin.toNat) % 256 := by
  rw [← toNat_sum9_not]
  simp [negate8]

theorem negate8_compC_iff (b : Byte) (plusOne cin : Bool) :
    (negate8 b plusOne cin).compC = true ↔ 256 ≤ 255 - b.toNat + plusOne.toNat + cin.toNat := by
  rw [← toNat_sum9_not]
  exact getLsbD_last_iff _

/-! ## Two bytes -/

theorem toNat_append_byte (hi lo : Byte) : (hi ++ lo : BitVec 16).toNat = hi.toNat * 256 + lo.toNat := by
  have h := BitVec.toNat_append hi lo
  rw [← Nat.shiftLeft_add_eq_or_of_lt lo.isLt, Nat.shiftLeft_eq] at h
  exact h

/-- A carry as a number, from the inequality that decides it. -/
theorem toNat_eq_of_iff {c : Bool} {p : Prop} [Decidable p] (h : c = true ↔ p) : c.toNat = if p then 1 else 0 := by
  cases c <;> simp_all

/-- Settles O21: both sums as numbers, the carry between them being that of the low byte. -/
theorem twoByteAdditionByLiterals : Obligations.TwoByteAdditionByLiterals := by
  intro lo hi s t u v hlow hcarry hhigh
  rw [exec_addla] at hlow
  rw [exec_addlac] at hhigh
  cases hlow
  cases hhigh
  rw [hcarry]
  have hc := toNat_eq_of_iff (add8_c_iff s.a lo false)
  have hlo := add8_r_toNat s.a lo false
  have hhi := add8_r_toNat u.a hi (add8 s.a lo false).c
  have hc' := add8_c_iff u.a hi (add8 s.a lo false).c
  have hs := s.a.isLt
  have hu := u.a.isLt
  have hl := lo.isLt
  have hh := hi.isLt
  rw [toNat_append_byte, toNat_append_byte]
  constructor
  · apply BitVec.eq_of_toNat_eq
    rw [BitVec.toNat_add, toNat_append_byte, toNat_append_byte, toNat_append_byte, hlo, hhi, hc]
    simp only [Bool.toNat_false]
    split <;> omega
  · rw [hc', hc]
    simp only [Bool.toNat_false]
    split <;> omega

/-! ## Negation -/

/-- COMPB (R141). -/
theorem exec_compb (s : State) : exec .compb s = .next { s with
    b := (negate8 s.b true false).r, sr1 := { s.sr1 with compC := (negate8 s.b true false).compC }, pc := s.pc + 1 } :=
  congrArg Host.Outcome.next (s.negateB_eq true false)

/-- COMPBC (R142), under both values of the open parameter. -/
theorem exec_compbc (s : State) : exec .compbc s = .next { s with
    b := (negate8 s.b s.params.compbcPlusOne s.sr1.compC).r
    sr1 := { s.sr1 with compC := (negate8 s.b s.params.compbcPlusOne s.sr1.compC).compC }
    pc := s.pc + 1 } :=
  congrArg Host.Outcome.next (s.negateB_eq s.params.compbcPlusOne s.sr1.compC)

theorem negate8_r_toNat_compb (b : Byte) : (negate8 b true false).r.toNat = (256 - b.toNat) % 256 := by
  have hb := b.isLt
  rw [negate8_r_toNat]
  simp
  omega

theorem negate8_compC_compb (b : Byte) : (negate8 b true false).compC = true ↔ b = 0 := by
  have hb := b.isLt
  rw [negate8_compC_iff, ← BitVec.toNat_inj]
  simp
  omega

theorem compb_compb_b {s t u : State} (hfst : exec .compb s = .next t) (hsnd : exec .compb t = .next u) : u.b = s.b := by
  rw [exec_compb] at hfst hsnd
  cases hfst
  cases hsnd
  have hb := s.b.isLt
  apply BitVec.eq_of_toNat_eq
  rw [negate8_r_toNat_compb, negate8_r_toNat_compb]
  omega

/-- Settles O22: the summation as a number. -/
theorem compbNegatesRegisterB : Obligations.CompbNegatesRegisterB :=
  ⟨fun s => ⟨_, exec_compb s, rfl, negate8_r_toNat_compb s.b, negate8_compC_compb s.b⟩,
    fun _ _ _ => compb_compb_b, rfl, rfl⟩

/-- Settles O23: the summation as a number, with the constant one and without it. -/
theorem compbcUnderBothReadings : Obligations.CompbcUnderBothReadings := by
  refine ⟨fun s hreading => ⟨_, exec_compbc s, rfl, ?_, ?_⟩, fun s hreading => ⟨_, exec_compbc s, rfl, ?_, ?_⟩, rfl, rfl⟩
  · rw [negate8_r_toNat, hreading]; rfl
  · rw [negate8_compC_iff, hreading]; rfl
  · rw [negate8_r_toNat, hreading]; rfl
  · rw [negate8_compC_iff, hreading]; rfl

/-- COMPB on the low byte and COMPBC on the high byte with the COMP_C it left: reading (a) adds one to the high byte. -/
theorem compb_compbc_b {s t u v : State} (hlow : exec .compb s = .next t) (hcarry : u.sr1.compC = t.sr1.compC)
    (hhigh : exec .compbc u = .next v) :
    (v.b ++ t.b : BitVec 16) = -(u.b ++ s.b : BitVec 16) + if u.params.compbcPlusOne then 0x0100 else 0 := by
  rw [exec_compb] at hlow
  rw [exec_compbc] at hhigh
  cases hlow
  cases hhigh
  rw [hcarry]
  have hc := toNat_eq_of_iff (negate8_compC_compb s.b)
  have hlo := negate8_r_toNat_compb s.b
  have hhi := negate8_r_toNat u.b u.params.compbcPlusOne (negate8 s.b true false).compC
  have hs := s.b.isLt
  have hu := u.b.isLt
  apply BitVec.eq_of_toNat_eq
  rw [BitVec.toNat_add, BitVec.toNat_neg, toNat_append_byte, toNat_append_byte, hlo, hhi, hc]
  simp only [← BitVec.toNat_inj]
  cases u.params.compbcPlusOne <;> simp <;> split <;> omega

/-- Settles O24: under reading (b) the two instructions negate, under reading (a) they add 0x0100. -/
theorem twoByteNegationNeedsReadingB : Obligations.TwoByteNegationNeedsReadingB := by
  refine ⟨fun s t u v hlow hcarry hreading hhigh => ?_, fun s t u v hlow hcarry hreading hhigh => ?_⟩
  · rw [compb_compbc_b hlow hcarry hhigh, hreading]
    exact BitVec.add_zero _
  · rw [compb_compbc_b hlow hcarry hhigh, hreading]
    rfl

end Sys2Proof.Machine
end

section
/-! Memory (20_memory.md section 1): the canonical form determines the data, reads and writes of data memory, and a program
loaded into program memory. -/

namespace Sys2Proof.Machine

/-! ## The canonical form -/

theorem Cells.lookup_eq_some_iff {β : Type} {m : List (Nat × β)} (h : Cells.Rising m) {k : Nat} {v : β} :
    Cells.lookup k m = some v ↔ (k, v) ∈ m := by
  induction m with
  | nil => simp [Cells.lookup]
  | cons e rest ih =>
    obtain ⟨j, w⟩ := e
    obtain ⟨hhead, hrest⟩ := List.pairwise_cons.mp h
    rw [Cells.lookup]
    split
    · next heq =>
      subst heq
      have hnot : (k, v) ∉ rest := fun hmem => absurd (hhead _ hmem) (Nat.lt_irrefl k)
      simp [hnot, eq_comm]
    · next hne => rw [ih hrest]; simp [hne]

/-- The entries of a canonical data memory are the bytes that differ from what an unlisted location reads as. -/
theorem Memory.mem_iff_read {m : Memory} (h : m.wf) {k : Nat} {v : Byte} :
    (k, v) ∈ m ↔ v ≠ Config.unlistedByte ∧ ∃ addr : DataAddr, addr.toNat = k ∧ m.read addr = v := by
  obtain ⟨hrising, hentries⟩ := h
  constructor
  · intro hmem
    obtain ⟨hrange, hlisted⟩ := hentries _ hmem
    have hk : (BitVec.ofNat 9 k).toNat = k := (BitVec.toNat_ofNat k 9).trans (Nat.mod_eq_of_lt hrange)
    refine ⟨hlisted, BitVec.ofNat 9 k, hk, ?_⟩
    rw [Memory.read, hk, (Cells.lookup_eq_some_iff hrising).mpr hmem, Option.getD_some]
  · rintro ⟨hlisted, addr, rfl, hread⟩
    rw [← Cells.lookup_eq_some_iff hrising]
    cases hlookup : Cells.lookup addr.toNat m with
    | none => exact absurd (by rw [← hread, Memory.read, hlookup, Option.getD_none]) hlisted
    | some w => rw [← hread, Memory.read, hlookup, Option.getD_some]

/-- Settles O44: the reads determine the entries, and rising addresses their order. -/
theorem canonicalMemoriesAreDeterminedByTheirReads : Obligations.CanonicalMemoriesAreDeterminedByTheirReads := by
  intro m n hm hn hread
  have hirrefl : Std.Irrefl fun x y : Nat × Byte => x.1 < y.1 := ⟨fun x => Nat.lt_irrefl x.1⟩
  have hantisymm : Std.Antisymm fun x y : Nat × Byte => x.1 < y.1 := ⟨fun x y h h' => absurd h' (Nat.lt_asymm h)⟩
  refine List.Pairwise.eq_of_mem_iff hm.1 hn.1 fun ⟨k, v⟩ => ?_
  rw [Memory.mem_iff_read hm, Memory.mem_iff_read hn]
  simp only [hread]

/-! ## Data memory -/

theorem State.memRead_congr {s t : State} {addr : DataAddr} (hparams : t.params = s.params)
    (hbyte : t.dmemAt addr = s.dmemAt addr) : t.memRead addr = s.memRead addr := by
  have hram : t.isRam addr = s.isRam addr := by rw [State.isRam, State.isRam, hparams]
  rw [State.memRead, State.memRead, hram, hbyte]

/-- Settles O43: a write in RAM is `Memory.write`, whose reads the laws of memory give. -/
theorem memoryReadAndWrite : Obligations.MemoryReadAndWrite := by
  refine ⟨fun s addr h => State.memRead_eq_ok.mpr ⟨h, rfl⟩, fun s addr h => State.memRead_eq_error.mpr ⟨h, rfl⟩,
    fun s addr v h => ?_, fun s addr v h => by rw [State.memWrite, h, if_neg (by decide)]⟩
  have hother : ∀ l, l ≠ addr → (s.dmem.write addr v).read l = s.dmem.read l := fun l hl => Memory.read_write_ne s.dmem hl v
  refine ⟨{ s with dmem := s.dmem.write addr v }, by rw [State.memWrite, if_pos h], ?_, fun l hl => ?_, rfl⟩
  · exact State.memRead_eq_ok.mpr ⟨h, Memory.read_write_self s.dmem addr v⟩
  · exact ⟨State.memRead_congr rfl (hother l hl), hother l hl⟩

/-! ## Program memory -/

theorem Slots.lookup_ofTerms {prog : List (ProgAddr × Instr)} (h : (prog.map Prod.fst).Nodup) {p : ProgAddr} {i : Instr}
    (hmem : (p, i) ∈ prog) : Cells.lookup p.toNat (Slots.ofTerms prog) = some (encode i) := by
  induction prog with
  | nil => cases hmem
  | cons e rest ih =>
    obtain ⟨q, j⟩ := e
    rw [List.map_cons, List.nodup_cons] at h
    obtain ⟨hhead, hrest⟩ := h
    obtain heq | hin := List.mem_cons.mp hmem
    · cases heq
      exact Slots.lookup_ofTerms_head p i rest
    · have hne : p ≠ q := by
        rintro rfl
        exact hhead (List.mem_map.mpr ⟨_, hin, rfl⟩)
      rw [Slots.lookup_ofTerms_ne hne, ih hrest hin]

/-- Settles O45: each address holds the word of its term, which decodes to it. -/
theorem loadedProgramIsInProgramMemory : Obligations.LoadedProgramIsInProgramMemory :=
  fun _ _ hnodup hwf e hmem =>
    State.pmemAt_eq_some.mpr ⟨encode e.2, Slots.lookup_ofTerms hnodup hmem, decode_encode (hwf e hmem)⟩

end Sys2Proof.Machine
end

section
/-! Every instruction at once: when it completes and the state it then leaves, as one closed form of `exec` (R13, R24, R205,
R206), and the statements about all instructions: completion, refusals, `pc`, frame, and what registers and flags an instruction
reads and writes. -/

namespace Sys2Proof.Machine

/-! ## The next state, field by field -/

/-- Register A after an instruction that completes. -/
def nextA (i : Instr) (s : State) : Byte :=
  match i with
  | .lita lit => lit
  | .swp => s.b
  | .add => (add8 s.a s.b false).r
  | .addc => (add8 s.a s.b s.sr1.c).r
  | .addla lit => (add8 s.a lit false).r
  | .addlac lit => (add8 s.a lit s.sr1.c).r
  | .nota => ~~~s.a
  | .and => s.a &&& s.b
  | _ => s.a

/-- Register B after an instruction that completes. -/
def nextB (i : Instr) (s : State) : Byte :=
  match i with
  | .litb lit => lit
  | .cpy | .swp => s.a
  | .addlb lit => (add8 s.b lit false).r
  | .addlbc lit => (add8 s.b lit s.sr1.c).r
  | .compb => (negate8 s.b true false).r
  | .compbc => (negate8 s.b s.params.compbcPlusOne s.sr1.compC).r
  | _ => s.b

/-- The flags an addition leaves, COMP_C being kept (R130). -/
def AddResult.flags (t : AddResult) (old : Sr1) : Sr1 := ⟨t.c, t.hc, t.ovf, old.compC⟩

/-- The flags after an instruction that completes. -/
def nextSr1 (i : Instr) (s : State) : Sr1 :=
  match i with
  | .add => (add8 s.a s.b false).flags s.sr1
  | .addc => (add8 s.a s.b s.sr1.c).flags s.sr1
  | .addla lit => (add8 s.a lit false).flags s.sr1
  | .addlac lit => (add8 s.a lit s.sr1.c).flags s.sr1
  | .addlb lit => (add8 s.b lit false).flags s.sr1
  | .addlbc lit => (add8 s.b lit s.sr1.c).flags s.sr1
  | .compb => { s.sr1 with compC := (negate8 s.b true false).compC }
  | .compbc => { s.sr1 with compC := (negate8 s.b s.params.compbcPlusOne s.sr1.compC).compC }
  | _ => s.sr1

/-- The halted condition after an instruction that completes (R30). -/
def nextHalted (i : Instr) (s : State) : Bool :=
  match i with
  | .halt => true
  | _ => s.halted

/-- The state after an instruction that completes: everything but registers, flags, `pc` and the halted condition is kept. -/
def nextState (i : Instr) (s : State) : State :=
  { s with a := nextA i s, b := nextB i s, sr1 := nextSr1 i s, pc := nextPc i s, halted := nextHalted i s }

/-- The data address an instruction reads, if it reads one, is plain RAM (R52). -/
def ReadsRamOnly (i : Instr) (s : State) : Prop := ∀ addr, dataRead i = some addr → s.isRam addr = true

/-! ## When an instruction completes, and when it is refused -/

theorem exec_specified {i : Instr} {s : State} (hspec : specified i = true) (hram : ReadsRamOnly i s) :
    exec i s = .next (nextState i s) := by
  cases i with
  | nop | halt | lita _ | litb _ | cpy | swp | jmp _ => rfl
  | ifra bit => exact exec_ifra bit s
  | ifsa bit => exact exec_ifsa bit s
  | ifrm addr bit => exact exec_ifrm_ram (hram addr rfl) bit
  | ifsm addr bit => exact exec_ifsm_ram (hram addr rfl) bit
  | add | addc | addla _ | addlac _ | addlb _ | addlbc _ | compb | compbc | nota | and => rfl
  | _ => cases hspec

theorem exec_unspecified {i : Instr} (hspec : specified i = false) (s : State) :
    exec i s = .refused (.notInSource i.mnemonic) := by
  cases i with
  | nop | halt | lita _ | litb _ | cpy | swp | jmp _ | ifra _ | ifsa _ | ifrm _ _ | ifsm _ _ => cases hspec
  | add | addc | addla _ | addlac _ | addlb _ | addlbc _ | compb | compbc | nota | and => cases hspec
  | _ => rfl

theorem exec_peripheral {i : Instr} {s : State} {addr : DataAddr} (hread : dataRead i = some addr)
    (hram : s.isRam addr = false) : exec i s = .refused (.peripheralRead addr) := by
  cases i with
  | ifrm _ bit => cases hread; exact skipOnMem_peripheral hram bit false
  | ifsm _ bit => cases hread; exact skipOnMem_peripheral hram bit true
  | _ => cases hread

/-- The three answers of an instruction: its next state, or one of the two refusals of the spec (R205, R206). -/
theorem exec_cases (i : Instr) (s : State) :
    (specified i = true ∧ ReadsRamOnly i s ∧ exec i s = .next (nextState i s)) ∨
    (specified i = false ∧ exec i s = .refused (.notInSource i.mnemonic)) ∨
    ∃ addr, dataRead i = some addr ∧ s.isRam addr = false ∧ exec i s = .refused (.peripheralRead addr) := by
  cases hspec : specified i with
  | false => exact .inr (.inl ⟨rfl, exec_unspecified hspec s⟩)
  | true =>
    by_cases hram : ReadsRamOnly i s
    · exact .inl ⟨rfl, hram, exec_specified hspec hram⟩
    · obtain ⟨addr, hread, houtside⟩ : ∃ addr, dataRead i = some addr ∧ ¬ s.isRam addr = true := by
        simpa [ReadsRamOnly] using hram
      have houtside : s.isRam addr = false := by simpa using houtside
      exact .inr (.inr ⟨addr, hread, houtside, exec_peripheral hread houtside⟩)

/-- An instruction that completes is one with semantics that reads RAM only, and leaves `nextState`. -/
theorem exec_eq_next {i : Instr} {s t : State} :
    exec i s = .next t ↔ specified i = true ∧ ReadsRamOnly i s ∧ nextState i s = t := by
  constructor
  · intro h
    obtain ⟨hspec, hram, hnext⟩ | ⟨_, hrefused⟩ | ⟨_, _, _, hrefused⟩ := exec_cases i s
    · exact ⟨hspec, hram, Host.Outcome.next.inj (hnext.symm.trans h)⟩
    · rw [hrefused] at h; cases h
    · rw [hrefused] at h; cases h
  · rintro ⟨hspec, hram, rfl⟩
    exact exec_specified hspec hram

theorem eq_nextState_of_exec {i : Instr} {s t : State} (h : exec i s = .next t) : t = nextState i s := by
  obtain ⟨_, _, rfl⟩ := exec_eq_next.mp h
  rfl

theorem exec_ne_fault (i : Instr) (s : State) (r : Fault) : exec i s ≠ .fault r := by
  obtain ⟨_, _, h⟩ | ⟨_, h⟩ | ⟨_, _, _, h⟩ := exec_cases i s <;> simp [h]

theorem exec_eq_refused {i : Instr} {s : State} {r : Refusal} :
    exec i s = .refused r ↔ specified i = false ∧ r = .notInSource i.mnemonic ∨
      ∃ addr, dataRead i = some addr ∧ s.isRam addr = false ∧ r = .peripheralRead addr := by
  constructor
  · intro hrefused
    obtain ⟨_, _, h⟩ | ⟨hspec, h⟩ | ⟨addr, hread, hram, h⟩ := exec_cases i s <;> rw [h] at hrefused <;> cases hrefused
    · exact .inl ⟨hspec, rfl⟩
    · exact .inr ⟨addr, hread, hram, rfl⟩
  · rintro (⟨hspec, rfl⟩ | ⟨addr, hread, hram, rfl⟩)
    · exact exec_unspecified hspec s
    · exact exec_peripheral hread hram

/-- Settles O33: the closed form of a specified instruction that reads RAM only. -/
theorem specifiedInstructionsComplete : Obligations.SpecifiedInstructionsComplete :=
  fun _ _ hspec hram => ⟨_, exec_specified hspec hram⟩

/-- Settles O34: the three answers of an instruction, of which two are refusals and none is a fault. -/
theorem refusalsAreExactlyThoseOfTheSpec : Obligations.RefusalsAreExactlyThoseOfTheSpec :=
  ⟨fun _ _ _ => exec_eq_refused, exec_ne_fault⟩

/-! ## What is left unchanged -/

theorem nextA_of_not_writesA {i : Instr} (h : writesA i = false) (s : State) : nextA i s = s.a := by
  cases i with
  | lita _ | swp | add | addc | addla _ | addlac _ | nota | and => cases h
  | _ => rfl

theorem nextB_of_not_writesB {i : Instr} (h : writesB i = false) (s : State) : nextB i s = s.b := by
  cases i with
  | litb _ | cpy | swp | addlb _ | addlbc _ | compb | compbc => cases h
  | _ => rfl

theorem flag_nextState_of_not_writesFlag {i : Instr} {f : Flag} (h : writesFlag f i = false) (s : State) :
    (nextState i s).flag f = s.flag f := by
  cases f with
  | c | hc | ovf =>
    cases i with
    | add | addc | addla _ | addlac _ | addlb _ | addlbc _ => cases h
    | _ => rfl
  | compC =>
    cases i with
    | compb | compbc => cases h
    | _ => rfl

theorem nextHalted_eq_true {i : Instr} {s : State} : nextHalted i s = true ↔ i = .halt ∨ s.halted = true := by
  cases i <;> simp [nextHalted]

theorem nextHalted_of_ne_halt {i : Instr} (h : i ≠ .halt) (s : State) : nextHalted i s = s.halted := by
  cases i with
  | halt => exact absurd rfl h
  | _ => rfl

/-- Settles O35: `nextPc` is the `pc` of the closed form. -/
theorem nextPcFollowsTheTable : Obligations.NextPcFollowsTheTable := fun _ _ _ h =>
  congrArg State.pc (eq_nextState_of_exec h)

/-- Settles O36: the closed form keeps both memories, the mark and the parameters. -/
theorem frameOfEveryInstruction : Obligations.FrameOfEveryInstruction := by
  intro i s t h
  rw [eq_nextState_of_exec h]
  exact ⟨⟨fun _ => rfl, fun _ => rfl⟩, rfl, rfl, fun hne => nextHalted_of_ne_halt hne s⟩

/-- Settles O37: an unwritten register in the closed form. -/
theorem unwrittenRegistersAreKept : Obligations.UnwrittenRegistersAreKept := by
  intro i s t h
  rw [eq_nextState_of_exec h]
  exact ⟨fun ha => nextA_of_not_writesA ha s, fun hb => nextB_of_not_writesB hb s⟩

/-- Settles O39: an unwritten flag in the closed form. -/
theorem unwrittenFlagsAreKept : Obligations.UnwrittenFlagsAreKept := by
  intro i s t f h hwrites
  rw [eq_nextState_of_exec h]
  exact flag_nextState_of_not_writesFlag hwrites s

/-- Settles O41: the halted condition of the closed form. -/
theorem onlyHaltHalts : Obligations.OnlyHaltHalts := by
  intro i s t h
  rw [eq_nextState_of_exec h]
  exact nextHalted_eq_true

/-! ## What does not matter: the closed form commutes with an update of what is not read -/

theorem nextState_of_not_readsA {i : Instr} (h : readsA i = false) (s : State) (v : Byte) :
    nextState i { s with a := v } = if writesA i then nextState i s else { nextState i s with a := v } := by
  cases i with
  | cpy | swp | ifra _ | ifsa _ | add | addc | addla _ | addlac _ | nota | and => cases h
  | _ => rfl

theorem nextState_of_not_readsB {i : Instr} (h : readsB i = false) (s : State) (v : Byte) :
    nextState i { s with b := v } = if writesB i then nextState i s else { nextState i s with b := v } := by
  cases i with
  | swp | add | addc | addlb _ | addlbc _ | compb | compbc | and => cases h
  | _ => rfl

theorem nextState_of_not_readsFlag {i : Instr} {f : Flag} (h : readsFlag f i = false) (s : State) (v : Bool) :
    nextState i (s.setFlag f v) = if writesFlag f i then nextState i s else (nextState i s).setFlag f v := by
  cases f with
  | c =>
    cases i with
    | addc | addlac _ | addlbc _ => cases h
    | _ => rfl
  | hc | ovf => cases i <;> rfl
  | compC =>
    cases i with
    | compbc => cases h
    | _ => rfl

/-- Whether an instruction completes depends on the parameters of the run only. -/
theorem exec_of_params_eq {i : Instr} {s s' t : State} (h : exec i s = .next t) (hparams : s'.params = s.params) :
    exec i s' = .next (nextState i s') := by
  obtain ⟨hspec, hram, _⟩ := exec_eq_next.mp h
  refine exec_specified hspec fun addr hread => ?_
  rw [State.isRam, hparams]
  exact hram addr hread

/-- Settles O38: the closed form commutes with an update of an unread register. -/
theorem unreadRegistersDoNotMatter : Obligations.UnreadRegistersDoNotMatter := by
  refine ⟨fun i s t v hreads h => ?_, fun i s t v hreads h => ?_⟩
  · rw [exec_of_params_eq (s' := { s with a := v }) h rfl, nextState_of_not_readsA hreads, eq_nextState_of_exec h]
  · rw [exec_of_params_eq (s' := { s with b := v }) h rfl, nextState_of_not_readsB hreads, eq_nextState_of_exec h]

/-- Settles O40: the closed form commutes with an update of an unread flag. -/
theorem unreadFlagsDoNotMatter : Obligations.UnreadFlagsDoNotMatter := by
  intro i s t f v hreads h
  rw [exec_of_params_eq h (s.setFlag_params f v), nextState_of_not_readsFlag hreads, eq_nextState_of_exec h]

end Sys2Proof.Machine
end

section
/-! Steps and runs (20_memory.md, 60_exceptions.md): what a step of a running and of an ended core answers, the marked state it
leaves, the invariant, and what a whole run keeps. -/

namespace Sys2Proof.Machine

/-! ## Fetch and the step of a running core -/

theorem State.ended_eq_false {s : State} : s.ended = false ↔ s.mark = none ∧ s.halted = false := by
  simp [State.ended, and_comm]

theorem State.fetch_pcOverflow {s : State} (h : Config.lastProgAddr < s.pc) : s.fetch = .error .pcOverflow := by
  rw [State.fetch, if_pos h]

/-- Fetch looks at `pc` and at the slot there only. -/
theorem State.fetch_congr {s t : State} (hpc : t.pc = s.pc) (hslot : t.slot s.pc = s.slot s.pc) : t.fetch = s.fetch := by
  simp only [State.fetch, State.pmemAt, hpc, hslot]

theorem State.pmemAt_of_invalid {s : State} {p : Nat} {w : SreWord} (hslot : s.slot p = some w)
    (hinvalid : ∀ i, decode w ≠ .ok i) : s.pmemAt p = none := by
  by_contra h
  obtain ⟨i, hi⟩ := Option.ne_none_iff_exists'.mp h
  obtain ⟨w', hslot', hdecode⟩ := State.pmemAt_eq_some.mp hi
  obtain rfl : w = w' := Option.some.inj (hslot.symm.trans hslot')
  exact hinvalid i hdecode

theorem step_of_fetch_ok {s : State} {i : Instr} (hm : s.mark = none) (hh : s.halted = false) (h : s.fetch = .ok i) :
    step s = exec i s := by
  rw [step_running hm hh, h]

theorem step_of_fetch_error {s : State} {r : ModelFault} (hm : s.mark = none) (hh : s.halted = false)
    (h : s.fetch = .error r) : step s = .fault (.modelFault r) := by
  rw [step_running hm hh, h]

/-- Settles O46: the fetch answers the term in the slot. -/
theorem stepRunsTheDecodedInstruction : Obligations.StepRunsTheDecodedInstruction :=
  fun _ w _ hm hh hpc hslot hdecode =>
    step_of_fetch_ok hm hh (State.fetch_eq_ok.mpr ⟨hpc, State.pmemAt_eq_some.mpr ⟨w, hslot, hdecode⟩⟩)

theorem decodeTableWord_eq_some {nbits w : Nat} {i : Instr} (h : decodeTableWord nbits w = some i) :
    ∃ v, sreWordOf nbits w = some v ∧ decode v = .ok i := by
  unfold decodeTableWord at h
  split at h
  · cases h
  · next v hv =>
    refine ⟨v, hv, ?_⟩
    split at h
    · next hdecode => cases h; exact hdecode
    · cases h

/-- Settles O47: the loaded slot holds the word, and loading keeps `pc`, the mark and the halted condition. -/
theorem stepRunsTheLoadedWord : Obligations.StepRunsTheLoadedWord := by
  intro s nbits w i hm hh hpc hword
  obtain ⟨v, hv, hdecode⟩ := decodeTableWord_eq_some hword
  unfold State.withFetchWord
  refine stepRunsTheDecodedInstruction _ v i ?_ ?_ ?_ ?_ hdecode
  · rw [State.setSlot_mark, hm]
  · rw [State.setSlot_halted, hh]
  · rw [State.setSlot_pc]; exact hpc
  · rw [State.setSlot_pc, State.slot_setSlot_self, hv]

/-- Settles O48: each of the three is a fault of the fetch. -/
theorem fetchFaults : Obligations.FetchFaults := by
  refine ⟨fun s hm hh hpc => ?_, fun s hm hh hpc hslot => ?_, fun s w hm hh hpc hslot hinvalid => ?_⟩
  · exact step_of_fetch_error hm hh (State.fetch_pcOverflow hpc)
  · exact step_of_fetch_error hm hh (State.fetch_eq_noInstruction hpc (by rw [State.pmemAt, hslot]))
  · exact step_of_fetch_error hm hh (State.fetch_eq_noInstruction hpc (State.pmemAt_of_invalid hslot hinvalid))

/-- Settles O49: a fetch that fails is the only fault, since no instruction faults, and the fetched term the only refusal. -/
theorem outcomesOfAStep : Obligations.OutcomesOfAStep := by
  constructor
  · intro s r hm hh
    rw [step_running hm hh]
    cases s.fetch with
    | error m => simp [eq_comm]
    | ok i => simp [exec_ne_fault]
  · intro s r hm hh
    rw [step_running hm hh]
    cases s.fetch with
    | error m => simp
    | ok i => simp [exec_eq_refused]

/-! ## The next state of a run, with the outcome marked -/

/-- A step of a running core completes, or raises a model fault or a refusal. -/
theorem step_cases {s : State} (h : s.ended = false) :
    (∃ i, s.fetch = .ok i ∧ step s = .next (nextState i s)) ∨
    (∃ r, step s = .fault (.modelFault r)) ∨ ∃ r, step s = .refused r := by
  obtain ⟨hm, hh⟩ := State.ended_eq_false.mp h
  cases hfetch : s.fetch with
  | error r => exact .inr (.inl ⟨r, step_of_fetch_error hm hh hfetch⟩)
  | ok i =>
    rw [step_of_fetch_ok hm hh hfetch]
    obtain ⟨_, _, hnext⟩ | ⟨_, hrefused⟩ | ⟨_, _, _, hrefused⟩ := exec_cases i s
    · exact .inl ⟨i, rfl, hnext⟩
    · exact .inr (.inr ⟨_, hrefused⟩)
    · exact .inr (.inr ⟨_, hrefused⟩)

/-- The marked state of a step of a running core: that of the completed instruction, or the same state with a mark. -/
theorem advance_cases {s : State} (h : s.ended = false) :
    (∃ i, s.fetch = .ok i ∧ s.advance = nextState i s) ∨ ∃ m, s.advance = s.setMark m := by
  obtain ⟨i, hfetch, hstep⟩ | ⟨r, hstep⟩ | ⟨r, hstep⟩ := step_cases h
  · exact .inl ⟨i, hfetch, by rw [State.advance, hstep, State.record]⟩
  · exact .inr ⟨.modelFault r, by rw [State.advance, hstep, State.record]⟩
  · exact .inr ⟨.refused r, by rw [State.advance, hstep, State.record]⟩

theorem step_setMark_modelFault (s : State) (r : ModelFault) :
    step (s.setMark (.modelFault r)) = .fault (.modelFault r) := rfl

theorem step_setMark_refused (s : State) (r : Refusal) : step (s.setMark (.refused r)) = .refused r := rfl

/-- Settles O50: the marked state of each raised outcome answers it again. -/
theorem raisingSetsOnlyTheMark : Obligations.RaisingSetsOnlyTheMark := by
  refine ⟨fun s hs hnot => ?_, fun s r _ hstep => ?_, fun s r _ hstep => ?_, fun _ _ => rfl⟩
  · obtain ⟨i, _, hstep⟩ | hraised := step_cases hs
    · exact absurd hstep (hnot _)
    · exact hraised
  · have hadvance : s.advance = s.setMark (.modelFault r) := by rw [State.advance, hstep, State.record]
    exact ⟨hadvance, by rw [hadvance, step_setMark_modelFault]⟩
  · have hadvance : s.advance = s.setMark (.refused r) := by rw [State.advance, hstep, State.record]
    exact ⟨hadvance, by rw [hadvance, step_setMark_refused]⟩

/-! ## Ended states -/

theorem setMark_of_mark_eq {s : State} {m : Mark} (h : s.mark = some m) : s.setMark m = s := by
  rw [State.setMark, ← h]

theorem step_ne_next_of_ended {s : State} (h : s.ended = true) (t : State) : step s ≠ .next t := by
  intro hstep
  obtain ⟨hm, hh, _⟩ := step_eq_next.mp hstep
  simp [State.ended, hm, hh] at h

theorem advance_of_ended {s : State} (h : s.ended = true) : s.advance = s := by
  cases hm : s.mark with
  | none =>
    have hh : s.halted = true := by simpa [State.ended, hm] using h
    have hstep : step s = .fault .halted := by simp [step, hm, hh]
    rw [State.advance, hstep, State.record]
  | some m =>
    cases m with
    | modelFault r =>
      have hstep : step s = .fault (.modelFault r) := by simp [step, hm]
      rw [State.advance, hstep, State.record, setMark_of_mark_eq hm]
    | refused r =>
      have hstep : step s = .refused r := by simp [step, hm]
      rw [State.advance, hstep, State.record, setMark_of_mark_eq hm]

theorem runFor_of_ended {s : State} (h : s.ended = true) (n : Nat) : s.runFor n = s := by
  induction n with
  | zero => rfl
  | succ n ih => rw [State.runFor, advance_of_ended h, ih]

/-- Settles O51: an ended state has no step, so that a run stays in it. -/
theorem endedStatesStayForEver : Obligations.EndedStatesStayForEver :=
  ⟨fun _ => step_ne_next_of_ended, fun n _ h => runFor_of_ended h n⟩

/-! ## The invariant -/

/-- From an address that can be fetched, the next `pc` is at most two further, or a jump target. -/
theorem nextPc_le {i : Instr} {s : State} (h : s.pc ≤ Config.lastProgAddr) : nextPc i s ≤ 16385 := by
  have hpc : s.pc ≤ 16383 := h
  unfold nextPc
  split
  case h_1 addr => have := addr.isLt; omega
  case h_2 | h_3 | h_4 | h_5 => split <;> omega
  case h_6 => omega

/-- A completed instruction of an unmarked core keeps the invariant: both memories and the mark are the old ones. -/
theorem nextState_inv {i : Instr} {s : State} (h : s.Inv) (hm : s.mark = none) (hpc : s.pc ≤ Config.lastProgAddr) :
    (nextState i s).Inv :=
  ⟨nextPc_le hpc, h.dmemWf, h.pmemWf, fun _ => hm⟩

theorem setMark_inv {s : State} (h : s.Inv) (hh : s.halted = false) (m : Mark) : (s.setMark m).Inv :=
  ⟨h.pcRange, h.dmemWf, h.pmemWf, fun hhalted => absurd (hh.symm.trans hhalted) (by decide)⟩

theorem step_inv {s t : State} (h : s.Inv) (hstep : step s = .next t) : t.Inv := by
  obtain ⟨hm, _, i, hfetch, hexec⟩ := step_eq_next.mp hstep
  rw [eq_nextState_of_exec hexec]
  exact nextState_inv h hm (State.fetch_eq_ok.mp hfetch).1

theorem advance_inv {s : State} (h : s.Inv) : s.advance.Inv := by
  cases hs : s.ended with
  | true => rwa [advance_of_ended hs]
  | false =>
    obtain ⟨hm, hh⟩ := State.ended_eq_false.mp hs
    obtain ⟨i, hfetch, hadvance⟩ | ⟨m, hadvance⟩ := advance_cases hs <;> rw [hadvance]
    · exact nextState_inv h hm (State.fetch_eq_ok.mp hfetch).1
    · exact setMark_inv h hh m

/-- Settles O52: a completed step moves `pc` from an address that can be fetched, any other marks or keeps the state. -/
theorem everyStepKeepsTheInvariant : Obligations.EveryStepKeepsTheInvariant :=
  fun _ h => ⟨fun _ => step_inv h, advance_inv h⟩

theorem launch_inv {l : Launch} (hd : l.dmem0.wf) (hp : Slots.wf l.pmem) : (State.launch l).Inv :=
  ⟨(Nat.le_of_lt l.resetPc.isLt).trans (by decide), hd, hp, fun _ => rfl⟩

/-- Settles O53: a launch state is running and unmarked, with a 14-bit `pc`; reset is the launch with empty memories. -/
theorem launchMeetsTheInvariant : Obligations.LaunchMeetsTheInvariant := by
  obtain ⟨hd, hp⟩ := State.reset_memories_wf
  exact ⟨fun _ hd hp => ⟨launch_inv hd hp, rfl⟩, launch_inv hd hp, rfl⟩

/-! ## Runs -/

theorem advance_memories (s : State) : s.advance.dmem = s.dmem ∧ s.advance.pmem = s.pmem ∧ s.advance.params = s.params := by
  cases hs : s.ended with
  | true => rw [advance_of_ended hs]; exact ⟨rfl, rfl, rfl⟩
  | false => obtain ⟨i, _, hadvance⟩ | ⟨m, hadvance⟩ := advance_cases hs <;> rw [hadvance] <;> exact ⟨rfl, rfl, rfl⟩

theorem runFor_memories (n : Nat) : ∀ s : State,
    (s.runFor n).dmem = s.dmem ∧ (s.runFor n).pmem = s.pmem ∧ (s.runFor n).params = s.params := by
  induction n with
  | zero => exact fun _ => ⟨rfl, rfl, rfl⟩
  | succ n ih =>
    intro s
    obtain ⟨hd, hp, hparams⟩ := ih s.advance
    obtain ⟨hd', hp', hparams'⟩ := advance_memories s
    exact ⟨hd.trans hd', hp.trans hp', hparams.trans hparams'⟩

/-- Settles O54: every step of a run keeps both memories and the parameters. -/
theorem memoryIsConstantOverARun : Obligations.MemoryIsConstantOverARun := by
  intro n s
  obtain ⟨hd, hp, hparams⟩ := runFor_memories n s
  exact ⟨fun addr => congrArg (Memory.read · addr) hd, fun p => congrArg (Cells.lookup p.toNat) hp, hparams⟩

theorem State.endedWell_iff {s : State} : s.endedWell = true ↔ s.halted = true ∧ s.mark = none := by
  simp [State.endedWell]

theorem State.ended_of_endedWell {s : State} (h : s.endedWell = true) : s.ended = true := by
  simp [State.ended, (State.endedWell_iff.mp h).1]

/-- The step that ends a run well executes a HALT: a mark would be no good end, and no other instruction halts. -/
theorem fetch_halt_of_advance_endedWell {s : State} (hs : s.ended = false) (h : s.advance.endedWell = true) :
    s.fetch = .ok .halt := by
  obtain ⟨hhalted, hmark⟩ := State.endedWell_iff.mp h
  obtain ⟨i, hfetch, hadvance⟩ | ⟨m, hadvance⟩ := advance_cases hs
  · rw [hadvance] at hhalted
    obtain rfl | hh := nextHalted_eq_true.mp hhalted
    · exact hfetch
    · exact absurd ((State.ended_eq_false.mp hs).2.symm.trans hh) (by decide)
  · rw [hadvance] at hmark
    cases hmark

/-- Settles O55: by induction on the number of steps, the HALT is executed by the first step whose next state has ended. -/
theorem successfulEndComesFromHalt : Obligations.SuccessfulEndComesFromHalt := by
  intro n
  induction n with
  | zero =>
    intro s hs hwell
    exact absurd (hs.symm.trans (State.ended_of_endedWell hwell)) (by decide)
  | succ n ih =>
    intro s hs hwell
    cases hnext : s.advance.ended with
    | false =>
      obtain ⟨k, hk, hrunning, hfetch⟩ := ih s.advance hnext hwell
      exact ⟨k + 1, Nat.succ_lt_succ hk, hrunning, hfetch⟩
    | true =>
      rw [State.runFor, runFor_of_ended hnext] at hwell
      exact ⟨0, n.succ_pos, hs, fetch_halt_of_advance_endedWell hs hwell⟩

/-! ## Program slots that are not fetched -/

/-- No instruction looks at program memory. -/
theorem nextState_setSlot (i : Instr) (s : State) (p : Nat) (o : Option SreWord) :
    nextState i (s.setSlot p o) = (nextState i s).setSlot p o := by
  cases o <;> rfl

/-- Settles O56: the fetch looks at the slot at `pc` only, and no instruction at any slot. -/
theorem otherSlotsDoNotMatter : Obligations.OtherSlotsDoNotMatter := by
  intro s t p o hp hstep
  obtain ⟨hm, hh, i, hfetch, hexec⟩ := step_eq_next.mp hstep
  have hfetch' : (s.setSlot p o).fetch = .ok i :=
    (State.fetch_congr (s.setSlot_pc p o) (s.slot_setSlot_ne hp.symm o)).trans hfetch
  rw [step_of_fetch_ok (by rw [State.setSlot_mark, hm]) (by rw [State.setSlot_halted, hh]) hfetch',
    exec_of_params_eq hexec (s.setSlot_params p o), nextState_setSlot, eq_nextState_of_exec hexec]

end Sys2Proof.Machine
end

section
/-! The written form (30_encoding.md sections 4 and 8): what a written operand becomes, terms written and read back, which
characters an accepted line holds, and programs. -/

namespace Sys2Proof.Machine

/-! ## Written operands (R85 to R88) -/

theorem literalOf_of_valid {l : Int} (hlow : -128 ≤ l) (hhigh : l ≤ 255) :
    literalOf l = some (BitVec.ofNat 8 (l % 256).toNat) := by
  rw [literalOf, if_pos (by simp [validLiteral, hlow, hhigh])]
  split
  · rw [Int.emod_eq_of_lt (by omega) (by omega)]
  · rw [← Int.add_emod_right, Int.emod_eq_of_lt (by omega) (by omega)]

theorem literalOf_of_invalid {l : Int} (h : l < -128 ∨ 255 < l) : literalOf l = none :=
  if_neg (by simp [validLiteral]; omega)

theorem targetOf_of_valid {n : Int} (hlow : 0 ≤ n) (hhigh : n ≤ 16383) : targetOf n = some (BitVec.ofNat 14 n.toNat) :=
  if_pos (by simp [validTarget, hlow, hhigh])

theorem targetOf_of_invalid {n : Int} (h : n < 0 ∨ 16383 < n) : targetOf n = none :=
  if_neg (by simp [validTarget]; omega)

theorem dataAddrOf_of_valid {n : Int} (hlow : 0 ≤ n) (hhigh : n ≤ 511) : dataAddrOf n = some (BitVec.ofNat 9 n.toNat) :=
  if_pos (by simp [validDataAddr, hlow, hhigh])

theorem dataAddrOf_of_invalid {n : Int} (h : n < 0 ∨ 511 < n) : dataAddrOf n = none :=
  if_neg (by simp [validDataAddr]; omega)

theorem bitIndexOf_of_valid {n : Int} (hlow : 0 ≤ n) (hhigh : n ≤ 7) : bitIndexOf n = some (BitVec.ofNat 3 n.toNat) :=
  if_pos (by simp [validBit, hlow, hhigh])

theorem bitIndexOf_of_invalid {n : Int} (h : n < 0 ∨ 7 < n) : bitIndexOf n = none :=
  if_neg (by simp [validBit]; omega)

/-- A number in the range of a width is used unchanged. -/
theorem toNat_ofNat_toNat {w : Nat} {n : Int} (hlow : 0 ≤ n) (hhigh : n < 2 ^ w) :
    ((BitVec.ofNat w n.toNat).toNat : Int) = n := by
  rw [BitVec.toNat_ofNat]
  push_cast
  rw [Int.toNat_of_nonneg hlow, Int.emod_eq_of_lt hlow hhigh]

/-- Settles O7: the value modulo 256 is a byte. -/
theorem literalIsTakenModulo256 : Obligations.LiteralIsTakenModulo256 :=
  ⟨fun _ hlow hhigh => ⟨_, literalOf_of_valid hlow hhigh, toNat_ofNat_toNat (by omega) (by omega)⟩,
    fun _ => literalOf_of_invalid⟩

/-- Settles O8: each of the thirteen mnemonics assembles its literal alone, and the two literals are the same byte. -/
theorem negativeLiteralAliasesItsComplement : Obligations.NegativeLiteralAliasesItsComplement := by
  intro m hm l hlow hhigh
  obtain ⟨f, hf⟩ : ∃ f : Byte → Instr, ∀ ops, assemble ⟨m, ops⟩ = asmLit f ops := by
    simp only [List.mem_cons, List.not_mem_nil, or_false] at hm
    rcases hm with rfl | rfl | rfl | rfl | rfl | rfl | rfl | rfl | rfl | rfl | rfl | rfl | rfl
    exacts [⟨.lita, fun _ => rfl⟩, ⟨.litb, fun _ => rfl⟩, ⟨.addla, fun _ => rfl⟩, ⟨.addlac, fun _ => rfl⟩,
      ⟨.addlb, fun _ => rfl⟩, ⟨.addlbc, fun _ => rfl⟩, ⟨.subl, fun _ => rfl⟩, ⟨.sublc, fun _ => rfl⟩,
      ⟨.andl, fun _ => rfl⟩, ⟨.orl, fun _ => rfl⟩, ⟨.xorl, fun _ => rfl⟩, ⟨.shftrl, fun _ => rfl⟩, ⟨.shftll, fun _ => rfl⟩]
  have halias : literalOf (l + 256) = some (BitVec.ofNat 8 (l % 256).toNat) := by
    rw [literalOf_of_valid (by omega) (by omega), Int.add_emod_right]
  refine ⟨f (BitVec.ofNat 8 (l % 256).toNat), ?_, ?_⟩
  · rw [hf, asmLit_of_literalOf f (literalOf_of_valid hlow (by omega))]
  · rw [hf, asmLit_of_literalOf f halias]

/-- Settles O9: each range is that of the operand's width. -/
theorem addressAndBitOperandsAreUsedUnchanged : Obligations.AddressAndBitOperandsAreUsedUnchanged :=
  ⟨fun _ hlow hhigh => ⟨_, targetOf_of_valid hlow hhigh, toNat_ofNat_toNat hlow (by omega)⟩,
    fun _ hlow hhigh => ⟨_, dataAddrOf_of_valid hlow hhigh, toNat_ofNat_toNat hlow (by omega)⟩,
    fun _ hlow hhigh => ⟨_, bitIndexOf_of_valid hlow hhigh, toNat_ofNat_toNat hlow (by omega)⟩,
    fun _ => targetOf_of_invalid, fun _ => dataAddrOf_of_invalid, fun _ => bitIndexOf_of_invalid⟩

/-! ## Terms written and read back -/

theorem literalOf_toNat (v : Byte) : literalOf v.toNat = some v := by
  have hv := v.isLt
  rw [literalOf_of_valid (by omega) (by omega), Int.emod_eq_of_lt (by omega) (by omega), Int.toNat_natCast,
    BitVec.ofNat_toNat, BitVec.setWidth_eq]

theorem targetOf_toNat (addr : ProgAddr) : targetOf addr.toNat = some addr := by
  have haddr := addr.isLt
  rw [targetOf_of_valid (by omega) (by omega), Int.toNat_natCast, BitVec.ofNat_toNat, BitVec.setWidth_eq]

theorem dataAddrOf_toNat (addr : DataAddr) : dataAddrOf addr.toNat = some addr := by
  have haddr := addr.isLt
  rw [dataAddrOf_of_valid (by omega) (by omega), Int.toNat_natCast, BitVec.ofNat_toNat, BitVec.setWidth_eq]

theorem bitIndexOf_toNat (bit : BitIndex) : bitIndexOf bit.toNat = some bit := by
  have hbit := bit.isLt
  rw [bitIndexOf_of_valid (by omega) (by omega), Int.toNat_natCast, BitVec.ofNat_toNat, BitVec.setWidth_eq]

theorem rawOf_natCast {raw : Nat} (h : raw ≤ rawLimit) : rawOf raw = some raw := by
  have hraw : raw ≤ 16383 := h
  rw [rawOf, if_pos (by simp [validRaw]; omega), Int.toNat_natCast]

theorem asmLit_written (f : Byte → Instr) (v : Byte) : asmLit f [(v.toNat : Int)] = .ok (f v) :=
  asmLit_of_literalOf f (literalOf_toNat v)

theorem asmTarget_written (f : ProgAddr → Instr) (addr : ProgAddr) : asmTarget f [(addr.toNat : Int)] = .ok (f addr) := by
  rw [asmTarget, targetOf_toNat]
  rfl

theorem asmBit_written (f : BitIndex → Instr) (bit : BitIndex) : asmBit f [(bit.toNat : Int)] = .ok (f bit) := by
  rw [asmBit, bitIndexOf_toNat]
  rfl

theorem asmMemBit_written (f : DataAddr → BitIndex → Instr) (addr : DataAddr) (bit : BitIndex) :
    asmMemBit f [(addr.toNat : Int), (bit.toNat : Int)] = .ok (f addr bit) := by
  rw [asmMemBit, dataAddrOf_toNat, bitIndexOf_toNat]

theorem asmRaw_written (f : Nat → Instr) {raw : Nat} (h : raw ≤ rawLimit) : asmRaw f [(raw : Int)] = .ok (f raw) := by
  rw [asmRaw, rawOf_natCast h]
  rfl

/-- A term's mnemonic selects its own assembler, which reads the written operands back. -/
theorem assemble_disassemble {i : Instr} (h : i.wellFormed = true) : assemble (disassemble i) = .ok i := by
  cases i with
  | lita v | litb v | addla v | addlac v | addlb v | addlbc v | subl v | sublc v | andl v | orl v | xorl v | shftrl v
  | shftll v => exact asmLit_written _ v
  | jmp addr => exact asmTarget_written _ addr
  | ifra bit | ifsa bit => exact asmBit_written _ bit
  | ifrm addr bit | ifsm addr bit => exact asmMemBit_written _ addr bit
  | sva raw | svb raw | lda raw | ldb raw | call raw | popm raw | pushm raw | stla raw | stlb raw | stsa raw | stsb raw
  | grow raw | shrink raw => exact asmRaw_written _ (of_decide_eq_true h)
  | _ => rfl

/-! ## Lines of characters -/

theorem readLine_chars (l : SourceLine) (before after : Nat) (hne : l.mnemonic ≠ "")
    (hupper : ∀ c ∈ l.mnemonic.toList, c.isUpper = true) : readLine (l.chars before after) = .ok l := by
  obtain ⟨mnemonic, ops⟩ := l
  have hname : mnemonic.toList ≠ [] := by simpa using hne
  cases ops with
  | nil =>
    have htake : mnemonic.toList.takeWhile Char.isUpper = mnemonic.toList := List.takeWhile_eq_self_iff.mpr hupper
    have hdrop : mnemonic.toList.dropWhile Char.isUpper = [] := List.dropWhile_eq_nil_iff.mpr hupper
    simp [SourceLine.chars, readLine, htake, hdrop, hname]
  | cons n ns =>
    obtain ⟨htake, hdrop⟩ := takeWhile_space (r := writeOperands before after (n :: ns)) hupper (by decide)
    have hops := operandsOf_writeOperands before after (n :: ns) 0 (by simp)
    rw [List.replicate_zero, List.nil_append] at hops
    simp [SourceLine.chars, readLine, htake, hdrop, hname, hops]

/-- Settles O57: the mnemonic ends at the first space, and the operands are read back. -/
theorem writtenLineIsReadBack : Obligations.WrittenLineIsReadBack :=
  fun l before after => readLine_chars l before after

theorem transcribeLine_disassemble {i : Instr} (h : i.wellFormed = true) (before after : Nat) :
    transcribeLine ((disassemble i).chars before after) = .ok i := by
  obtain ⟨hne, hupper⟩ := Instr.mnemonic_upper i
  rw [transcribeLine, readLine_chars (disassemble i) before after hne hupper]
  exact assemble_disassemble h

/-- Settles O6: the line is read back, and its operands are assembled to the term. -/
theorem transcribedTermIsTheTerm : Obligations.TranscribedTermIsTheTerm :=
  fun _ h => ⟨assemble_disassemble h, transcribeLine_disassemble h⟩

/-- A line that is read is a mnemonic of upper-case letters, alone or followed by a space and operands. -/
theorem readLine_eq_ok {cs : List Char} {l : SourceLine} (h : readLine cs = .ok l) :
    cs.takeWhile Char.isUpper ≠ [] ∧ (cs.dropWhile Char.isUpper = [] ∨
      ∃ rest ops, cs.dropWhile Char.isUpper = ' ' :: rest ∧ operandsOf (splitCommas rest) = some ops) := by
  simp only [readLine] at h
  split at h
  · next hdrop =>
    split at h
    · cases h
    · next hname => exact ⟨hname, .inl hdrop⟩
  · next rest hdrop =>
    split at h
    · cases h
    · next hname =>
      split at h
      · next ops hops => exact ⟨hname, .inr ⟨rest, ops, hdrop, hops⟩⟩
      · cases h
  · cases h

/-- Operands that are read hold digits, minus signs, spaces and the commas between them. -/
theorem operands_chars {rest : List Char} {ops : List Int} (h : operandsOf (splitCommas rest) = some ops) :
    ∀ c ∈ rest, c.isDigit = true ∨ c = ' ' ∨ c = ',' ∨ c = '-' := by
  intro c hc
  obtain rfl | ⟨w, hw, hcw⟩ := splitCommas_mem rest c hc
  · exact .inr (.inr (.inl rfl))
  · obtain hdigit | rfl | rfl := operandsOf_mem _ _ h w hw c hcw
    · exact .inl hdigit
    · exact .inr (.inr (.inr rfl))
    · exact .inr (.inl rfl)

theorem readLine_chars_shown {cs : List Char} {l : SourceLine} (h : readLine cs = .ok l) :
    ∀ c ∈ cs, c.isUpper = true ∨ c.isDigit = true ∨ c = ' ' ∨ c = ',' ∨ c = '-' := by
  intro c hc
  rw [← List.takeWhile_append_dropWhile (p := Char.isUpper) (l := cs), List.mem_append] at hc
  obtain hc | hc := hc
  · exact .inl (List.mem_takeWhile_imp hc)
  · obtain ⟨_, hnil | ⟨rest, ops, hdrop, hops⟩⟩ := readLine_eq_ok h
    · rw [hnil] at hc
      cases hc
    · rw [hdrop] at hc
      obtain rfl | hc := List.mem_cons.mp hc
      · exact .inr (.inr (.inl rfl))
      · exact .inr (operands_chars hops c hc)

theorem readLine_begins_upper {cs : List Char} {l : SourceLine} (h : readLine cs = .ok l) :
    ∃ c rest, cs = c :: rest ∧ c.isUpper = true := by
  obtain ⟨hname, _⟩ := readLine_eq_ok h
  cases cs with
  | nil => exact absurd rfl hname
  | cons c rest =>
    refine ⟨c, rest, rfl, ?_⟩
    by_contra hc
    exact hname (by simp [hc])

theorem readLine_of_transcribeLine {cs : List Char} {i : Instr} (h : transcribeLine cs = .ok i) :
    ∃ l, readLine cs = .ok l := by
  unfold transcribeLine at h
  split at h
  · next l hl => exact ⟨l, hl⟩
  · cases h

/-- Settles O58: an accepted line has been read, as a mnemonic and operands of these characters. -/
theorem acceptedLinesHoldOnlyTheShownCharacters : Obligations.AcceptedLinesHoldOnlyTheShownCharacters := by
  intro cs i h
  obtain ⟨l, hl⟩ := readLine_of_transcribeLine h
  exact ⟨readLine_chars_shown hl, readLine_begins_upper hl⟩

/-! ## Programs -/

theorem transcribe_cons_of_ok {l : List Char} {i : Instr} (h : transcribeLine l = .ok i) (n : Nat) (ls : List (List Char)) :
    transcribe n (l :: ls) = (transcribe (n + 1) ls).map (i :: ·) := by
  rw [transcribe, h]
  cases transcribe (n + 1) ls <;> rfl

theorem transcribe_cons_of_error {l : List Char} {e : LineError} (h : transcribeLine l = .error e) (n : Nat)
    (ls : List (List Char)) : transcribe n (l :: ls) = .error (n, e) := by
  rw [transcribe, h]

/-- The lines of well-formed terms before others give these terms, and the others are numbered on. -/
theorem transcribe_append_of_wellFormed (before after : Nat) (others : List (List Char)) {is : List Instr}
    (hwf : ∀ i ∈ is, i.wellFormed = true) : ∀ n,
    transcribe n ((is.map fun i => (disassemble i).chars before after) ++ others) =
      (transcribe (n + is.length) others).map (is ++ ·) := by
  induction is with
  | nil => intro n; cases h : transcribe n others <;> simp [h, Except.map]
  | cons i is ih =>
    intro n
    obtain ⟨hi, his⟩ := List.forall_mem_cons.mp hwf
    rw [List.map_cons, List.cons_append, transcribe_cons_of_ok (transcribeLine_disassemble hi before after), ih his,
      List.length_cons, Nat.add_right_comm, Nat.add_assoc]
    cases transcribe (n + (is.length + 1)) others <;> rfl

/-- Settles O59: the lines of the terms with nothing after them, or with the refused line. -/
theorem programIsTranscribedLineByLine : Obligations.ProgramIsTranscribedLineByLine := by
  intro n before after is hwf
  refine ⟨?_, fun l e rest he => ?_⟩
  · have h := transcribe_append_of_wellFormed before after [] hwf n
    rw [List.append_nil, transcribe, Except.map, List.append_nil] at h
    exact h
  · rw [transcribe_append_of_wellFormed before after (l :: rest) hwf n, transcribe_cons_of_error he, Except.map]

end Sys2Proof.Machine
end
